-- ==== Sys2Proof/Word.lean ====
section
/-! DEFINITION. The one datum the block moves: a byte (00_scope.md R7, 20_memory.md R32). -/

namespace Sys2Proof

/-- An unsigned 8-bit value (R7). Lengths, capacities and cursors are natural numbers instead, because R7 adds them as
natural numbers. -/
abbrev Byte := BitVec 8

end Sys2Proof
end

