-- ==== Sys2Proof/Config.lean ====
section
/-! DEFINITION. The constants of the wire format and the values the model names where the spec leaves them open. -/

namespace Sys2Proof.Config

/-- Frame terminator (R5). -/
def END : Byte := 0x0A

/-- Escape introducer (R5). -/
def ESC : Byte := 0x0B

/-- Second wire byte of an escaped terminator (R5). -/
def ESC_END : Byte := 0x1A

/-- Second wire byte of an escaped escape byte (R5). -/
def ESC_ESC : Byte := 0x1B

/-- The value of the open parameter `LW` in `State.reset` only; R5 suggests it.
DESIGN CHOICE, unsafe for a claim about the reset state alone (log 1). -/
def suggestedLW : Nat := 16

/-- What an index of PL or DB that no entry lists reads as. The spec calls both spaces total maps (R103) and gives no
contents. DESIGN CHOICE, unsafe (log 6). -/
def unwrittenByte : Byte := 0x00

end Sys2Proof.Config
end

