-- ==== Sys2Proof/Syntax.lean ====
section
/-! DEFINITION. The thirteen instructions of spec/opcode_table.json, the command word and the selecting contexts. -/

namespace Sys2Proof

/-- One constructor per row of the opcode table (30_encoding.md R55), in the table's order. An operand is the part of the
selecting value that the row leaves open: the length or capacity of a command, the byte of a catch-all row. -/
inductive Instr where
  | encode (len : Nat)
  | decode (cap : Nat)
  | encX2
  | encClose
  | encEnd
  | encEsc
  | encLit (b : Byte)
  | decEnd
  | decEsc
  | decLit (c : Byte)
  | decXend
  | decXesc
  | decXlit (c : Byte)
  deriving DecidableEq, Repr

/-- A command as the host presents it: the two fields of format C (R50). -/
structure Command where
  op : BitVec 1
  arg : Nat
  deriving DecidableEq, Repr

/-- The six mutually exclusive contexts of the opcode table (R55), one for each condition on the framer's state under which
a row can be selected. -/
inductive Context where
  /-- Unit CMD, `op == IDLE`. -/
  | command
  /-- Unit ENC, `e_phase == E_ESC2`. -/
  | escapePending
  /-- Unit ENC, `e_phase == E_FETCH and e_idx == e_len`. -/
  | payloadDone
  /-- Unit ENC, `e_phase == E_FETCH and e_idx < e_len`. -/
  | payload
  /-- Unit DEC, `d_state == LITERAL`. -/
  | wireLiteral
  /-- Unit DEC, `d_state == PENDING_ESCAPE`. -/
  | wirePending
  deriving DecidableEq, Repr

/-- How many bits select an instruction in a context: a packed command word has LW+1 bits (R50), a payload or wire byte 8
(R45, R46, R49), a row of format S none (R55). -/
def Context.width (lw : Nat) : Context → Nat
  | .command => lw + 1
  | .escapePending => 0
  | .payloadDone => 0
  | .payload => 8
  | .wireLiteral => 8
  | .wirePending => 8

/-- The mnemonics of the opcode table, in its order. -/
inductive Mnemonic where
  | ENCODE | DECODE | ENC_X2 | ENC_CLOSE | ENC_END | ENC_ESC | ENC_LIT
  | DEC_END | DEC_ESC | DEC_LIT | DEC_XEND | DEC_XESC | DEC_XLIT
  deriving DecidableEq, Repr

/-- The row an instruction belongs to. -/
def Instr.mnemonic : Instr → Mnemonic
  | .encode _ => .ENCODE
  | .decode _ => .DECODE
  | .encX2 => .ENC_X2
  | .encClose => .ENC_CLOSE
  | .encEnd => .ENC_END
  | .encEsc => .ENC_ESC
  | .encLit _ => .ENC_LIT
  | .decEnd => .DEC_END
  | .decEsc => .DEC_ESC
  | .decLit _ => .DEC_LIT
  | .decXend => .DEC_XEND
  | .decXesc => .DEC_XESC
  | .decXlit _ => .DEC_XLIT

end Sys2Proof
end

