-- ==== Sys2Proof/WellFormed.lean ====
section
/-! DEFINITION. Which instructions the block with parameter `lw` has: the operands the encodings admit. -/

namespace Sys2Proof

/-- A length or capacity fits the LW bits of `cmd_arg` (R50); the operand of a catch-all row is none of the bytes its
`except` column lists (R45, R46, R49, R55). -/
def wellFormed (lw : Nat) : Instr → Bool
  | .encode len => decide (len < 2 ^ lw)
  | .decode cap => decide (cap < 2 ^ lw)
  | .encX2 => true
  | .encClose => true
  | .encEnd => true
  | .encEsc => true
  | .encLit b => decide (b ≠ Config.END ∧ b ≠ Config.ESC)
  | .decEnd => true
  | .decEsc => true
  | .decLit c => decide (c ≠ Config.END ∧ c ≠ Config.ESC)
  | .decXend => true
  | .decXesc => true
  | .decXlit c => decide (c ≠ Config.ESC_END ∧ c ≠ Config.ESC_ESC)

end Sys2Proof
end

