-- ==== Sys2Proof/Decode.lean ====
section
/-! DEFINITION. The decoder and the encoder of the three formats, and the opcode table as data (30_encoding.md). -/

namespace Sys2Proof

/-- Why a word is no word of a format. -/
inductive DecodeReject where
  /-- The word has a bit beyond the format's width in this context. Raised by `decode`; safe: no such word reaches the
  block's ports (log 10). -/
  | tooWide (ctx : Context)
  deriving DecidableEq, Repr

/-- The packed command word of R50: `cmd_op` at bit 0, `cmd_arg` above it. -/
def packCommand (c : Command) : Nat := c.op.toNat + 2 * c.arg

/-- Format C (R50): `cmd_op` 0 is ENCODE, 1 is DECODE. -/
def decodeCommand (w : Nat) : Instr :=
  if w % 2 = 0 then .encode (w / 2) else .decode (w / 2)

/-- Format P (R49). -/
def decodePayload (b : Byte) : Instr :=
  if b = Config.END then .encEnd
  else if b = Config.ESC then .encEsc
  else .encLit b

/-- Format W in decoder state LITERAL (R45). -/
def decodeLiteral (c : Byte) : Instr :=
  if c = Config.END then .decEnd
  else if c = Config.ESC then .decEsc
  else .decLit c

/-- Format W in decoder state PENDING_ESCAPE (R46). -/
def decodePending (c : Byte) : Instr :=
  if c = Config.ESC_END then .decXend
  else if c = Config.ESC_ESC then .decXesc
  else .decXlit c

/-- The step that the selecting word `w` selects in a context. Every word of the context's width selects one (R52); a wider
number is no word of the format and is rejected by name. -/
def decode (lw : Nat) (ctx : Context) (w : Nat) : Except DecodeReject Instr :=
  if w < 2 ^ ctx.width lw then
    .ok (match ctx with
      | .command => decodeCommand w
      | .escapePending => .encX2
      | .payloadDone => .encClose
      | .payload => decodePayload (BitVec.ofNat 8 w)
      | .wireLiteral => decodeLiteral (BitVec.ofNat 8 w)
      | .wirePending => decodePending (BitVec.ofNat 8 w))
  else .error (.tooWide ctx)

/-- The context and the selecting word of an instruction, from the same tables (R45, R46, R49, R50, R55). -/
def encode : Instr → Context × Nat
  | .encode len => (.command, packCommand ⟨0, len⟩)
  | .decode cap => (.command, packCommand ⟨1, cap⟩)
  | .encX2 => (.escapePending, 0)
  | .encClose => (.payloadDone, 0)
  | .encEnd => (.payload, Config.END.toNat)
  | .encEsc => (.payload, Config.ESC.toNat)
  | .encLit b => (.payload, b.toNat)
  | .decEnd => (.wireLiteral, Config.END.toNat)
  | .decEsc => (.wireLiteral, Config.ESC.toNat)
  | .decLit c => (.wireLiteral, c.toNat)
  | .decXend => (.wirePending, Config.ESC_END.toNat)
  | .decXesc => (.wirePending, Config.ESC_ESC.toNat)
  | .decXlit c => (.wirePending, c.toNat)

/-- A row of spec/opcode_table.json: the columns that take part in selection (R55). -/
structure Row where
  mnemonic : Mnemonic
  ctx : Context
  pattern : Nat
  mask : Nat
  priority : Nat
  except : List Nat
  deriving DecidableEq, Repr

/-- spec/opcode_table.json, row by row. -/
def opcodeRows : List Row := [
  ⟨.ENCODE, .command, 0x0, 0x1, 1, []⟩,
  ⟨.DECODE, .command, 0x1, 0x1, 1, []⟩,
  ⟨.ENC_X2, .escapePending, 0x00, 0x00, 1, []⟩,
  ⟨.ENC_CLOSE, .payloadDone, 0x00, 0x00, 1, []⟩,
  ⟨.ENC_END, .payload, 0x0A, 0xFF, 1, []⟩,
  ⟨.ENC_ESC, .payload, 0x0B, 0xFF, 1, []⟩,
  ⟨.ENC_LIT, .payload, 0x00, 0x00, 2, [0x0A, 0x0B]⟩,
  ⟨.DEC_END, .wireLiteral, 0x0A, 0xFF, 1, []⟩,
  ⟨.DEC_ESC, .wireLiteral, 0x0B, 0xFF, 1, []⟩,
  ⟨.DEC_LIT, .wireLiteral, 0x00, 0x00, 2, [0x0A, 0x0B]⟩,
  ⟨.DEC_XEND, .wirePending, 0x1A, 0xFF, 1, []⟩,
  ⟨.DEC_XESC, .wirePending, 0x1B, 0xFF, 1, []⟩,
  ⟨.DEC_XLIT, .wirePending, 0x00, 0x00, 2, [0x1A, 0x1B]⟩]

/-- A row fits a value when `(value and mask) == match` (R55). -/
def Row.fits (r : Row) (w : Nat) : Bool := w &&& r.mask == r.pattern

/-- The rows of one context in the order in which they are tried: ascending priority, then the table's order (R55). -/
def rowsTried (ctx : Context) : List Row :=
  opcodeRows.filter (fun r => r.ctx == ctx && r.priority == 1) ++
    opcodeRows.filter (fun r => r.ctx == ctx && r.priority == 2)

/-- The decoder "written from the table" of R55: the first row tried that fits. -/
def tableSelect (ctx : Context) (w : Nat) : Option Mnemonic :=
  ((rowsTried ctx).find? (·.fits w)).map (·.mnemonic)

/-- The rows of a context that fit when each is read alone, with its `except` column (R55). -/
def rowsReadAlone (ctx : Context) (w : Nat) : List Mnemonic :=
  (opcodeRows.filter fun r => r.ctx == ctx && r.fits w && !r.except.contains w).map (·.mnemonic)

/-- The context in which a bare table word is read. The table's patterns 0x0A and 0x0B stand in two contexts each, and a
bare word carries none: the four control bytes are read as wire bytes, every other word as a packed command word.
DESIGN CHOICE (log 11). -/
def bareContext (nbits w : Nat) : Context :=
  if nbits = 8 then
    if w = Config.END.toNat ∨ w = Config.ESC.toNat then .wireLiteral
    else if w = Config.ESC_END.toNat ∨ w = Config.ESC_ESC.toNat then .wirePending
    else .command
  else .command

/-- The instruction the decoder reads from a bare table word of `nbits` bits, at the parameter value of `State.reset`. -/
def decodeTableWord (nbits w : Nat) : Option Instr :=
  if nbits = 0 ∨ 2 ^ nbits ≤ w then none
  else (decode Config.suggestedLW (bareContext nbits w) w).toOption

end Sys2Proof
end

