-- ==== Sys2Proof/Machine/State.lean ====
section
/-! DEFINITION. The state of the framer and of the agents around it, the reasons a step can stop, and the reset state. -/

namespace Sys2Proof.Machine

/-- Values of the call register (10_state.md R9). -/
inductive Op where
  | IDLE | ENC | DEC
  deriving DecidableEq, Repr

/-- Values of the encoder's phase register (R12). -/
inductive EPhase where
  | E_FETCH | E_ESC2
  deriving DecidableEq, Repr

/-- Values of the decoder state register (R14). -/
inductive DState where
  | LITERAL | PENDING_ESCAPE | DONE
  deriving DecidableEq, Repr

/-- One move of another agent between two steps of the framer (70_reset_and_hazards.md R106). -/
inductive EnvMove where
  /-- The host presents a command, in place of one presented before. -/
  | present (c : Command)
  /-- The host stops presenting a command. -/
  | withdraw
  /-- The host writes a byte of PL; R98 says what a write during an encode does (log 13). -/
  | writePL (i : Nat) (b : Byte)
  /-- The host writes a byte of DB. -/
  | writeDB (i : Nat) (b : Byte)
  /-- The host drives the reset input. -/
  | setRst (v : Bool)
  /-- The transport receives a byte: it goes to the tail of `rxq`. -/
  | deliver (b : Byte)
  /-- The transport loses unread byte number `n` (R102: "loss, if modelled, is an environment step") (log 14). -/
  | loseReceived (n : Nat)
  /-- The transport becomes able or unable to take a byte. -/
  | setTxReady (v : Bool)
  /-- The transport puts the oldest byte of `txq` on the link (log 14). -/
  | sendOldest
  deriving DecidableEq, Repr

/-- Whose turn it is: a rising clock edge of the framer, or a move of another agent (R36, R43; log 3). -/
inductive Turn where
  | edge
  | agent (m : EnvMove)
  deriving DecidableEq, Repr

/-- Why the machine stops. The block itself has no fault (60_exceptions.md R83): every constructor stands for a state or an
access that the spec rules out, and stopping there is safe (log 9). -/
inductive Fault where
  /-- Raised on a clock edge with `op == DEC`, a received byte and `d_state == DONE`, which R71 calls unreachable. Safe. -/
  | decoderInDone
  /-- Raised on a clock edge with `op == ENC`, `TxReady()`, `e_phase == E_FETCH` and `e_idx > e_len`: no row of the opcode
  table has this context, and R21(c) excludes it. Safe. -/
  | cursorPastLength
  /-- Raised by an access of the framer or the host at an index outside `0 .. 2^LW - 1`, which R25 says does not exist.
  Safe. -/
  | noSuchIndex
  deriving DecidableEq, Repr

/-- Why a step has no meaning. -/
inductive Refusal where
  /-- Raised by an arm of `exec` whose instruction has no meaning yet; no arm raises it. Safe. -/
  | notModelled (mnemonic : String)
  /-- Raised on a clock edge when the presented command does not fit the LW wires of `cmd_arg` (R40, R50). Safe: such a
  command cannot be presented (log 10). -/
  | badWord (why : DecodeReject)
  deriving DecidableEq, Repr

/-- Contents of a buffer space: the entries that differ from `Config.unwrittenByte`, addresses strictly rising. -/
abbrev Mem := List Host.Cell

/-- The canonical form of a buffer's contents. -/
def Mem.wf (m : Mem) : Bool :=
  decide (m.Pairwise (fun x y => x.1 < y.1) ∧ ∀ c ∈ m, c.2 ≠ Config.unwrittenByte)

/-- Every listed index lies in the index space `0 .. 2^LW - 1` of R25. -/
def Mem.inSpace (lw : Nat) (m : Mem) : Bool := decide (∀ c ∈ m, c.1 < 2 ^ lw)

/-- The ten registers of R8, the environment's state of R22, the input ports of R40 that are not derived from it, the
parameter LW of R5, and the model's own list of turns to come. -/
structure State where
  /-- The parameter LW (R5); no step changes it (log 1). -/
  lw : Nat
  /-- R9. -/
  op : Op
  /-- R10. -/
  e_len : Nat
  /-- R11. -/
  e_idx : Nat
  /-- R12. -/
  e_phase : EPhase
  /-- R13. -/
  e_pend : Byte
  /-- R14. -/
  d_state : DState
  /-- R15. -/
  d_len : Nat
  /-- R16. -/
  d_cap : Nat
  /-- R17. -/
  OVF : Bool
  /-- R18. -/
  MAL : Bool
  /-- The payload buffer, the host's (R22). -/
  PL : Mem
  /-- The destination buffer, the host's (R22). -/
  DB : Mem
  /-- Received bytes not yet read, oldest first, the transport's (R22). -/
  rxq : List Byte
  /-- Bytes handed over for transmission, oldest first, the transport's (R22). -/
  txq : List Byte
  /-- `cmd_valid`, `cmd_op`, `cmd_arg`: the command the host presents (R40). -/
  cmd : Option Command
  /-- `tx_ready`: `TxReady()` (R30, R40). -/
  tx_ready : Bool
  /-- The reset input (R40, R94). -/
  rst : Bool
  /-- The turns to come, next first; when none is left every further turn is a clock edge. The model's own field (log 3). -/
  script : List Turn
  deriving DecidableEq, Repr

/-- What a step or a meaning answers. -/
abbrev Result := Host.Outcome State Fault Refusal

/-- The machine right after reset, reset released: the registers as R23 states them; the parameter, the environment and the
inputs as log entries 1, 5 and 6 name them (DESIGN CHOICE, unsafe for a claim about this state alone). -/
def State.reset : State where
  lw := Config.suggestedLW
  op := .IDLE
  e_len := 0
  e_idx := 0
  e_phase := .E_FETCH
  e_pend := 0x00
  d_state := .LITERAL
  d_len := 0
  d_cap := 0
  OVF := false
  MAL := false
  PL := []
  DB := []
  rxq := []
  txq := []
  cmd := none
  tx_ready := true
  rst := false
  script := []

end Sys2Proof.Machine
end

