-- ==== Sys2Proof/Machine/Ops.lean ====
section
/-! DEFINITION. The named operations on buffers, streams and registers (20_memory.md), and reset. The block takes no
exception and returns from none (60_exceptions.md R83, R91): a condition is a flag write, in Flags.lean. -/

namespace Sys2Proof.Machine

/-- The byte at an index of a buffer (R26). -/
def Mem.read : Mem → Nat → Byte
  | [], _ => Config.unwrittenByte
  | (k, v) :: m, a => if k = a then v else Mem.read m a

/-- A buffer with one byte changed (R27), kept in canonical form. -/
def Mem.write : Mem → Nat → Byte → Mem
  | [], a, v => if v = Config.unwrittenByte then [] else [(a, v)]
  | (k, x) :: m, a, v =>
    if a < k then if v = Config.unwrittenByte then (k, x) :: m else (a, v) :: (k, x) :: m
    else if a = k then if v = Config.unwrittenByte then m else (a, v) :: m
    else (k, x) :: Mem.write m a v

/-- `MemRead(PL:i, 1)` (R26); no byte outside the index space of R25. -/
def plRead (s : State) (i : Nat) : Option Byte :=
  if i < 2 ^ s.lw then some (s.PL.read i) else none

/-- A write of PL by the host (R106); none outside the index space of R25. -/
def plWrite (s : State) (i : Nat) (v : Byte) : Option State :=
  if i < 2 ^ s.lw then some { s with PL := s.PL.write i v } else none

/-- `MemWrite(DB:i, 1, v)` (R27); none outside the index space of R25. -/
def dbWrite (s : State) (i : Nat) (v : Byte) : Option State :=
  if i < 2 ^ s.lw then some { s with DB := s.DB.write i v } else none

/-- `RxAvail()` (R29). -/
def rxAvail (s : State) : Bool := !s.rxq.isEmpty

/-- `RxRead()` (R29): the oldest unread byte and the state without it. On an empty queue it has no meaning (U10). -/
def rxRead (s : State) : Option (Byte × State) :=
  match s.rxq with
  | [] => none
  | c :: q => some (c, { s with rxq := q })

/-- `TxReady()` (R30). -/
def txReady (s : State) : Bool := s.tx_ready

/-- `TxWrite(b)` (R30). -/
def txWrite (b : Byte) (s : State) : State := { s with txq := s.txq ++ [b] }

/-- The acceptance of a command takes it off the command channel (R41; log 4). -/
def takeCommand (s : State) : State := { s with cmd := none }

/-- The registers ENCODE writes for a non-zero length (R58). -/
def startEncode (len : Nat) (s : State) : State :=
  { s with e_len := len, e_idx := 0, e_phase := .E_FETCH, op := .ENC }

/-- The registers DECODE writes, but for the flags (R59). -/
def startDecode (cap : Nat) (s : State) : State :=
  { s with d_cap := cap, d_len := 0, d_state := .LITERAL, op := .DEC }

/-- `e_idx <- e_idx + 1` (R64 to R66). -/
def advanceCursor (s : State) : State := { s with e_idx := s.e_idx + 1 }

/-- The second byte of an escape sequence is latched and owed (R65, R66). -/
def oweEscape (second : Byte) (s : State) : State := { s with e_pend := second, e_phase := .E_ESC2 }

/-- `e_phase <- E_FETCH` (R67). -/
def escapePaid (s : State) : State := { s with e_phase := .E_FETCH }

/-- `op <- IDLE` (R68, R73). -/
def endCall (s : State) : State := { s with op := .IDLE }

/-- `d_state <- d` (R73 to R78). -/
def enterState (d : DState) (s : State) : State := { s with d_state := d }

/-- `d_len <- d_len + 1` (R72). -/
def countByte (s : State) : State := { s with d_len := s.d_len + 1 }

/-- Reset (R94): the ten registers take the values of R23, and nothing else changes (R95). -/
def resetRegisters (s : State) : State :=
  { s with
    op := .IDLE, e_len := 0, e_idx := 0, e_phase := .E_FETCH, e_pend := 0x00,
    d_state := .LITERAL, d_len := 0, d_cap := 0, OVF := false, MAL := false }

end Sys2Proof.Machine
end

