-- ==== Sys2Proof/Machine/Flags.lean ====
section
/-! DEFINITION. The two sticky flags (60_exceptions.md R84, R90, R91) and the status word. A condition changes exactly one
register bit, saves nothing and redirects nothing. -/

namespace Sys2Proof.Machine

/-- BufferOverflow: `OVF <- 1` (R85). -/
def setOVF (s : State) : State := { s with OVF := true }

/-- MalformedFrame: `MAL <- 1` (R86). -/
def setMAL (s : State) : State := { s with MAL := true }

/-- Acceptance of DECODE clears both (R59, R91). -/
def clearFlags (s : State) : State := { s with OVF := false, MAL := false }

/-- `status[1:0] = {MAL, OVF}` (R19, R84). -/
def status (s : State) : BitVec 2 := BitVec.ofBool s.MAL ++ BitVec.ofBool s.OVF

end Sys2Proof.Machine
end

