-- ==== Sys2Proof/Machine/Operands.lean ====
section
/-! DEFINITION. Where the selecting value of a step comes from, and the decoder's guarded store (42_decoder.md R72). -/

namespace Sys2Proof.Machine

/-- The packed command word on the command channel (R50), if the host presents a command. -/
def commandWord (s : State) : Option Nat := s.cmd.map packCommand

/-- The payload byte at the cursor, `MemRead(PL:e_idx, 1)` (R63). -/
def payloadByte (s : State) : Option Byte := plRead s s.e_idx

/-- The wire byte that `RxRead()` would return (R71). -/
def wireByte (s : State) : Option Byte := (rxRead s).map (·.1)

/-- `append(v)` (R72): store one decoded payload byte at `d_len`, or record that it did not fit. -/
def append (v : Byte) (s : State) : Result :=
  if s.d_len < s.d_cap then
    match dbWrite s s.d_len v with
    | some t => .next (countByte t)
    | none => .fault .noSuchIndex
  else .next (setOVF s)

end Sys2Proof.Machine
end

