-- ==== Sys2Proof/Machine/Select.lean ====
section
/-! DEFINITION. Dispatch: which step, if any, the framer takes on a clock edge (R57, R63, R71), and the shared form of
every meaning. -/

namespace Sys2Proof.Machine

/-- What a clock edge does. -/
inductive Selection where
  /-- `rst` is 1: reset overrides everything (R94). -/
  | reset
  /-- No step is enabled: nothing changes (R57). -/
  | hold
  /-- A state the spec rules out. -/
  | noRule (f : Fault)
  /-- A presented command that is no command word. -/
  | badWord (why : DecodeReject)
  /-- The step taken. -/
  | run (i : Instr)
  deriving DecidableEq, Repr

/-- The step that a selecting word selects in a context. -/
def selectWord (lw : Nat) (ctx : Context) (w : Nat) : Selection :=
  match decode lw ctx w with
  | .ok i => .run i
  | .error e => .badWord e

/-- `op == IDLE`: a presented command is accepted (R57, R60). -/
def selectCommand (s : State) : Selection :=
  match commandWord s with
  | none => .hold
  | some w => selectWord s.lw .command w

/-- `op == ENC` (R63): a hold while `TxReady()` is false; PL is read only where a payload byte remains. -/
def selectEncoder (s : State) : Selection :=
  if txReady s then
    match s.e_phase with
    | .E_ESC2 => selectWord s.lw .escapePending 0
    | .E_FETCH =>
      if s.e_idx = s.e_len then selectWord s.lw .payloadDone 0
      else if s.e_idx < s.e_len then
        match payloadByte s with
        | some b => selectWord s.lw .payload b.toNat
        | none => .noRule .noSuchIndex
      else .noRule .cursorPastLength
  else .hold

/-- `op == DEC` (R71): a hold while `RxAvail()` is false. -/
def selectDecoder (s : State) : Selection :=
  match wireByte s with
  | none => .hold
  | some c =>
    match s.d_state with
    | .LITERAL => selectWord s.lw .wireLiteral c.toNat
    | .PENDING_ESCAPE => selectWord s.lw .wirePending c.toNat
    | .DONE => .noRule .decoderInDone

/-- The dispatch rule R57; reset overrides it (R94). -/
def select (s : State) : Selection :=
  if s.rst then .reset
  else match s.op with
    | .IDLE => selectCommand s
    | .ENC => selectEncoder s
    | .DEC => selectDecoder s

/-- The form of every meaning: the effect happens when the instruction is the step that is enabled and selected; otherwise
there is no step of it, and no step changes no state (R57, R60). DESIGN CHOICE for an instruction given to `exec` in a state
that does not select it (log 8). -/
def whenSelected (i : Instr) (s : State) (effect : Result) : Result :=
  if select s = .run i then effect else .next s

/-- A decoder step consumes the wire byte that selected it (R71). -/
def consuming (s : State) (effect : State → Result) : Result :=
  match rxRead s with
  | some (_, t) => effect t
  | none => .next s

end Sys2Proof.Machine
end

