-- ==== Sys2Proof/Machine/Commands.lean ====
section
/-! DEFINITION. The two commands (40_commands.md). -/

namespace Sys2Proof.Machine

/-- ENCODE (R58): a zero length is a no-op whose call is complete at once. -/
def execEncode (len : Nat) (s : State) : Result :=
  whenSelected (.encode len) s
    (.next (if len = 0 then takeCommand s else startEncode len (takeCommand s)))

/-- DECODE (R59). -/
def execDecode (cap : Nat) (s : State) : Result :=
  whenSelected (.decode cap) s (.next (clearFlags (startDecode cap (takeCommand s))))

end Sys2Proof.Machine
end

