-- ==== Sys2Proof/Machine/Decoder.lean ====
section
/-! DEFINITION. The six decoder steps (42_decoder.md). Each consumes exactly one wire byte. -/

namespace Sys2Proof.Machine

/-- DEC.END (R73). -/
def execDecEnd (s : State) : Result :=
  whenSelected .decEnd s (consuming s fun t => .next (endCall (enterState .DONE t)))

/-- DEC.ESC (R74). -/
def execDecEsc (s : State) : Result :=
  whenSelected .decEsc s (consuming s fun t => .next (enterState .PENDING_ESCAPE t))

/-- DEC.LIT (R75). -/
def execDecLit (c : Byte) (s : State) : Result :=
  whenSelected (.decLit c) s (consuming s fun t => append c t)

/-- DEC.XEND (R76). -/
def execDecXend (s : State) : Result :=
  whenSelected .decXend s (consuming s fun t => append Config.END (enterState .LITERAL t))

/-- DEC.XESC (R77). -/
def execDecXesc (s : State) : Result :=
  whenSelected .decXesc s (consuming s fun t => append Config.ESC (enterState .LITERAL t))

/-- DEC.XLIT (R78). -/
def execDecXlit (c : Byte) (s : State) : Result :=
  whenSelected (.decXlit c) s (consuming s fun t => append c (setMAL (enterState .LITERAL t)))

end Sys2Proof.Machine
end

