-- ==== Sys2Proof/Machine/Encoder.lean ====
section
/-! DEFINITION. The five encoder steps (41_encoder.md). Each performs exactly one `TxWrite`. -/

namespace Sys2Proof.Machine

/-- ENC.LIT (R64). -/
def execEncLit (b : Byte) (s : State) : Result :=
  whenSelected (.encLit b) s (.next (advanceCursor (txWrite b s)))

/-- ENC.END (R65). -/
def execEncEnd (s : State) : Result :=
  whenSelected .encEnd s (.next (advanceCursor (oweEscape Config.ESC_END (txWrite Config.ESC s))))

/-- ENC.ESC (R66). -/
def execEncEsc (s : State) : Result :=
  whenSelected .encEsc s (.next (advanceCursor (oweEscape Config.ESC_ESC (txWrite Config.ESC s))))

/-- ENC.X2 (R67). -/
def execEncX2 (s : State) : Result :=
  whenSelected .encX2 s (.next (escapePaid (txWrite s.e_pend s)))

/-- ENC.CLOSE (R68). -/
def execEncClose (s : State) : Result :=
  whenSelected .encClose s (.next (endCall (txWrite Config.END s)))

end Sys2Proof.Machine
end

