-- ==== Sys2Proof/Machine/Dispatch.lean ====
section
/-! DEFINITION. One arm per instruction, each one direct call of its meaning. -/

namespace Sys2Proof.Machine

def exec (i : Instr) (s : State) : Host.Outcome State Fault Refusal :=
  match i with
  | .encode len => Sys2Proof.Machine.execEncode len s
  | .decode cap => Sys2Proof.Machine.execDecode cap s
  | .encX2 => Sys2Proof.Machine.execEncX2 s
  | .encClose => Sys2Proof.Machine.execEncClose s
  | .encEnd => Sys2Proof.Machine.execEncEnd s
  | .encEsc => Sys2Proof.Machine.execEncEsc s
  | .encLit b => Sys2Proof.Machine.execEncLit b s
  | .decEnd => Sys2Proof.Machine.execDecEnd s
  | .decEsc => Sys2Proof.Machine.execDecEsc s
  | .decLit c => Sys2Proof.Machine.execDecLit c s
  | .decXend => Sys2Proof.Machine.execDecXend s
  | .decXesc => Sys2Proof.Machine.execDecXesc s
  | .decXlit c => Sys2Proof.Machine.execDecXlit c s

end Sys2Proof.Machine
end

