-- ==== Sys2Proof/Machine/Environment.lean ====
section
/-! DEFINITION. The moves of the host and the transport at step boundaries (70_reset_and_hazards.md R106). -/

namespace Sys2Proof.Machine

/-- What a move of another agent changes. None touches a register of the framer (R22). A host access outside the index space
of R25 faults. -/
def envMove (m : EnvMove) (s : State) : Result :=
  match m with
  | .present c => .next { s with cmd := some c }
  | .withdraw => .next { s with cmd := none }
  | .writePL i b =>
    match plWrite s i b with
    | some t => .next t
    | none => .fault .noSuchIndex
  | .writeDB i b =>
    match dbWrite s i b with
    | some t => .next t
    | none => .fault .noSuchIndex
  | .setRst v => .next { s with rst := v }
  | .deliver b => .next { s with rxq := s.rxq ++ [b] }
  | .loseReceived n => .next { s with rxq := s.rxq.eraseIdx n }
  | .setTxReady v => .next { s with tx_ready := v }
  | .sendOldest => .next { s with txq := s.txq.tail }

end Sys2Proof.Machine
end

