-- ==== Sys2Proof/Machine/Clock.lean ====
section
/-! DEFINITION. One rising edge of the clock (R43), one turn, and the state in which an instruction is the next step. -/

namespace Sys2Proof.Machine

/-- A rising edge: reset, or the one step that is enabled, or nothing (R43, R57, R94). -/
def clockEdge (s : State) : Result :=
  match select s with
  | .reset => .next (resetRegisters s)
  | .hold => .next s
  | .noRule f => .fault f
  | .badWord e => .refused (.badWord e)
  | .run i => exec i s

/-- One turn of the script; without one, a clock edge (log 3). -/
def takeTurn (s : State) : Result :=
  match s.script with
  | [] => clockEdge s
  | .edge :: rest => clockEdge { s with script := rest }
  | .agent m :: rest => envMove m { s with script := rest }

/-- The clock runs next, out of reset. -/
def readyToRun (s : State) : State := { s with rst := false, script := [] }

/-- A command is on the command channel of the idle block. -/
def placeCommand (op : BitVec 1) (arg : Nat) (s : State) : State :=
  { readyToRun s with op := .IDLE, cmd := some ⟨op, arg⟩ }

/-- A payload byte stands at the encoder's cursor and the transport takes bytes. -/
def placePayload (b : Byte) (s : State) : State :=
  if s.e_idx < s.e_len ∧ s.e_idx < 2 ^ s.lw then
    { readyToRun s with op := .ENC, e_phase := .E_FETCH, tx_ready := true, PL := s.PL.write s.e_idx b }
  else
    { readyToRun s with
      op := .ENC, e_phase := .E_FETCH, tx_ready := true, e_idx := 0, e_len := 1, PL := s.PL.write 0 b }

/-- A wire byte is the next unread one of a decode call in state `d`. -/
def placeWire (d : DState) (c : Byte) (s : State) : State :=
  { readyToRun s with op := .DEC, d_state := d, rxq := c :: s.rxq }

/-- All that it takes for the very next step to be `i`: the block has no stored program, so its selecting value and the
sequencing registers are set (R20; log 12). -/
def place (i : Instr) (s : State) : State :=
  match i with
  | .encode len => placeCommand 0 len s
  | .decode cap => placeCommand 1 cap s
  | .encX2 => { readyToRun s with op := .ENC, e_phase := .E_ESC2, tx_ready := true }
  | .encClose => { readyToRun s with op := .ENC, e_phase := .E_FETCH, e_idx := s.e_len, tx_ready := true }
  | .encEnd => placePayload Config.END s
  | .encEsc => placePayload Config.ESC s
  | .encLit b => placePayload b s
  | .decEnd => placeWire .LITERAL Config.END s
  | .decEsc => placeWire .LITERAL Config.ESC s
  | .decLit c => placeWire .LITERAL c s
  | .decXend => placeWire .PENDING_ESCAPE Config.ESC_END s
  | .decXesc => placeWire .PENDING_ESCAPE Config.ESC_ESC s
  | .decXlit c => placeWire .PENDING_ESCAPE c s

end Sys2Proof.Machine
end

