-- ==== Sys2Proof/Machine/Ports.lean ====
section
/-! DEFINITION. The ports of the block as functions of the registers and of the inputs of the same cycle (20_memory.md R40
to R42). The step rules do not use them; statements tie the two together. -/

namespace Sys2Proof.Machine

/-- `cmd_valid`. -/
def cmd_valid (s : State) : Bool := s.cmd.isSome

/-- `cmd_ready = (op == IDLE)`. -/
def cmd_ready (s : State) : Bool := s.op == .IDLE

/-- `busy = (op != IDLE)`. -/
def busy (s : State) : Bool := s.op != .IDLE

/-- `rx_valid`: `RxAvail()`. -/
def rx_valid (s : State) : Bool := rxAvail s

/-- `rx_data`: the head of `rxq`; no meaning while `rx_valid` is 0 (log 16). -/
def rx_data (s : State) : Option Byte := s.rxq.head?

/-- `rx_ready = (op == DEC)`. -/
def rx_ready (s : State) : Bool := s.op == .DEC

/-- `tx_valid = (op == ENC)`. -/
def tx_valid (s : State) : Bool := s.op == .ENC

/-- `pl_addr = e_idx`. -/
def pl_addr (s : State) : Nat := s.e_idx

/-- `pl_data`: the byte of PL at `pl_addr`, in the same cycle. -/
def pl_data (s : State) : Byte := s.PL.read (pl_addr s)

/-- `tx_data` (R42); meaningful only when `tx_valid`. -/
def tx_data (s : State) : Byte :=
  if s.e_phase = .E_ESC2 then s.e_pend
  else if s.e_idx = s.e_len then Config.END
  else if pl_data s = Config.END then Config.ESC
  else if pl_data s = Config.ESC then Config.ESC
  else pl_data s

/-- `db_addr = d_len`; meaningful only when `db_we`. -/
def db_addr (s : State) : Nat := s.d_len

/-- `db_data` (R42) from the received byte; R42 gives it no value in DONE, nor without a received byte (log 16). -/
def db_data (s : State) : Option Byte :=
  match rx_data s with
  | none => none
  | some c =>
    match s.d_state with
    | .LITERAL => some c
    | .PENDING_ESCAPE =>
      some (if c = Config.ESC_END then Config.END else if c = Config.ESC_ESC then Config.ESC else c)
    | .DONE => none

/-- Whether the received byte is to be stored in the decoder's state: the last conjunct of `db_we` (R42). -/
def storesByte (s : State) : Bool :=
  match s.d_state with
  | .PENDING_ESCAPE => true
  | .LITERAL => rx_data s != some Config.END && rx_data s != some Config.ESC
  | .DONE => false

/-- `db_we` (R42; 90_conflicts.md C7). -/
def db_we (s : State) : Bool :=
  !s.rst && s.op == .DEC && rx_valid s && decide (s.d_len < s.d_cap) && storesByte s

/-- `done = (d_state == DONE)`. -/
def done (s : State) : Bool := s.d_state == .DONE

/-- `count = d_len`. -/
def count (s : State) : Nat := s.d_len

/-- `ovf = OVF`. -/
def ovf (s : State) : Bool := s.OVF

/-- `mal = MAL`. -/
def mal (s : State) : Bool := s.MAL

/-- A transfer on the command channel happens on this edge (R41). -/
def cmdTransfer (s : State) : Bool := !s.rst && cmd_valid s && cmd_ready s

/-- A transfer on the RX channel happens on this edge (R41). -/
def rxTransfer (s : State) : Bool := !s.rst && rx_valid s && rx_ready s

/-- A transfer on the TX channel happens on this edge (R41). -/
def txTransfer (s : State) : Bool := !s.rst && tx_valid s && txReady s

end Sys2Proof.Machine
end

