-- ==== Sys2Proof/Safety.lean ====
section
/-! DEFINITION. What counts as a sound state and a sound run, and the reference functions of whole calls (41_encoder.md R69,
42_decoder.md R79), in the terms claims use. -/

namespace Sys2Proof.Safety

open Sys2Proof.Machine

/-- The LW-bit registers hold LW-bit values and LW is at least 1 (R5, R7, R10, R11, R15, R16). -/
abbrev InRange (s : State) : Prop :=
  1 ≤ s.lw ∧ s.e_len < 2 ^ s.lw ∧ s.e_idx < 2 ^ s.lw ∧ s.d_len < 2 ^ s.lw ∧ s.d_cap < 2 ^ s.lw

/-- Both buffers are in canonical form and list only indices of their space. -/
abbrev BuffersWf (s : State) : Prop :=
  s.PL.wf = true ∧ s.PL.inSpace s.lw = true ∧ s.DB.wf = true ∧ s.DB.inSpace s.lw = true

/-- R21(a). -/
abbrev DecoderActive (s : State) : Prop := s.op = .DEC → s.d_state ≠ .DONE

/-- R21(b). -/
abbrev WithinCapacity (s : State) : Prop := s.d_len ≤ s.d_cap

/-- R21(c). -/
abbrev CursorWithinPayload (s : State) : Prop := s.op = .ENC → 1 ≤ s.e_len ∧ s.e_idx ≤ s.e_len

/-- R21(d), but for its last clause on the payload byte, which is `EscapeMatchesPayload`. -/
abbrev EscapeOwed (s : State) : Prop :=
  s.op = .ENC → s.e_phase = .E_ESC2 →
    1 ≤ s.e_idx ∧ (s.e_pend = Config.ESC_END ∨ s.e_pend = Config.ESC_ESC)

/-- R21(f). -/
abbrev OverflowMeansFull (s : State) : Prop := s.OVF = true → s.d_len = s.d_cap

/-- The invariants of R21 that one state shows, the registers' widths, and the buffers' form. -/
abbrev Sound (s : State) : Prop :=
  InRange s ∧ BuffersWf s ∧ DecoderActive s ∧ WithinCapacity s ∧ CursorWithinPayload s ∧ EscapeOwed s ∧
    OverflowMeansFull s

/-- The last clause of R21(d), for a payload that no one has written since its byte was read: the owed second byte is the
one that the byte before the cursor calls for. -/
abbrev EscapeMatchesPayload (s : State) : Prop :=
  s.op = .ENC → s.e_phase = .E_ESC2 →
    (s.e_pend = Config.ESC_END → s.PL.read (s.e_idx - 1) = Config.END) ∧
    (s.e_pend = Config.ESC_ESC → s.PL.read (s.e_idx - 1) = Config.ESC)

/-- A move that the ports and the index spaces admit: a command fits its LW wires (R40), an index is one of R25. -/
def moveFits (lw : Nat) : EnvMove → Bool
  | .present c => decide (c.arg < 2 ^ lw)
  | .writePL i _ => decide (i < 2 ^ lw)
  | .writeDB i _ => decide (i < 2 ^ lw)
  | .withdraw => true
  | .setRst _ => true
  | .deliver _ => true
  | .loseReceived _ => true
  | .setTxReady _ => true
  | .sendOldest => true

/-- A clock edge, or a move that fits. -/
def turnFits (lw : Nat) : Turn → Bool
  | .edge => true
  | .agent m => moveFits lw m

/-- The presented command and every turn to come fit the ports. -/
abbrev EnvFits (s : State) : Prop :=
  (∀ c ∈ s.cmd, c.arg < 2 ^ s.lw) ∧ ∀ t ∈ s.script, turnFits s.lw t = true

/-- The ten registers of R8. -/
def registers (s : State) :
    Op × Nat × Nat × EPhase × Byte × DState × Nat × Nat × Bool × Bool :=
  (s.op, s.e_len, s.e_idx, s.e_phase, s.e_pend, s.d_state, s.d_len, s.d_cap, s.OVF, s.MAL)

/-- The payload of a call: PL at indices `0 .. n - 1` (R58). -/
def payload (m : Mem) (n : Nat) : List Byte := (List.range n).map m.read

/-- The wire bytes of one payload byte (R47, R51, R69). -/
def item (b : Byte) : List Byte :=
  if b = Config.END then [Config.ESC, Config.ESC_END]
  else if b = Config.ESC then [Config.ESC, Config.ESC_ESC]
  else [b]

/-- The frame of a payload (R47, R69); nothing at all for the empty one. -/
def enc (p : List Byte) : List Byte :=
  if p = [] then [] else p.flatMap item ++ [Config.END]

/-- The decoding function of R79: the payload of the frame at the head of a stream, whether its fourth clause (a malformed
escape) was used, and the bytes after the frame; none where the stream holds no whole frame. -/
def dec : List Byte → Option (List Byte × Bool × List Byte)
  | [] => none
  | c :: rest =>
    if c = Config.END then some ([], false, rest)
    else if c = Config.ESC then
      match rest with
      | [] => none
      | y :: more =>
        (dec more).map fun r =>
          if y = Config.ESC_END then (Config.END :: r.1, r.2)
          else if y = Config.ESC_ESC then (Config.ESC :: r.1, r.2)
          else (y :: r.1, true, r.2.2)
    else (dec rest).map fun r => (c :: r.1, r.2)

/-- What has been read of a frame so far, without any capacity: the payload bytes, whether an escape is pending, whether a
malformed escape was read, whether the terminator was read (R90). -/
structure Reading where
  payload : List Byte
  pending : Bool
  malformed : Bool
  ended : Bool
  deriving DecidableEq, Repr

/-- Nothing read yet. -/
def Reading.start : Reading := ⟨[], false, false, false⟩

/-- One wire byte more (R45, R46); after the terminator nothing is read. -/
def Reading.read (r : Reading) (c : Byte) : Reading :=
  if r.ended then r
  else if r.pending then
    if c = Config.ESC_END then { r with payload := r.payload ++ [Config.END], pending := false }
    else if c = Config.ESC_ESC then { r with payload := r.payload ++ [Config.ESC], pending := false }
    else { r with payload := r.payload ++ [c], pending := false, malformed := true }
  else if c = Config.END then { r with ended := true }
  else if c = Config.ESC then { r with pending := true }
  else { r with payload := r.payload ++ [c] }

/-- The decoder registers and flags that R90 and R79 give a call of capacity `d_cap` after such a reading. -/
abbrev Shows (r : Reading) (s : State) : Prop :=
  s.d_len = min r.payload.length s.d_cap ∧
  s.OVF = decide (s.d_cap < r.payload.length) ∧
  s.MAL = r.malformed ∧
  s.d_state = (if r.ended then .DONE else if r.pending then .PENDING_ESCAPE else .LITERAL) ∧
  s.op = (if r.ended then .IDLE else .DEC)

/-- The wire bytes of a payload that an encoder has emitted when it stands at the cursor and phase of `s`: the items of the
bytes before the cursor, without the last byte while that one is owed (R69, R21(d)). -/
def emitted (p : List Byte) (s : State) : List Byte :=
  if s.e_phase = .E_ESC2 then ((p.take s.e_idx).flatMap item).dropLast else (p.take s.e_idx).flatMap item

/-- Turns during a decode call that neither drive reset nor lose received bytes. -/
def receiveTurn : Turn → Bool
  | .edge => true
  | .agent (.setRst v) => !v
  | .agent (.loseReceived _) => false
  | .agent _ => true

/-- The bytes that the turns to come deliver. -/
def delivered (script : List Turn) : List Byte :=
  script.filterMap fun
    | .agent (.deliver b) => some b
    | _ => none

/-- Two states that differ at most in registers which the call in progress, if any, does not read (R24): same parameter,
environment and turns, and the same registers of the unit that `op` names. -/
abbrev SameCall (s t : State) : Prop :=
  s.lw = t.lw ∧ s.PL = t.PL ∧ s.DB = t.DB ∧ s.rxq = t.rxq ∧ s.txq = t.txq ∧ s.cmd = t.cmd ∧
  s.tx_ready = t.tx_ready ∧ s.rst = t.rst ∧ s.script = t.script ∧ s.op = t.op ∧
  (s.op = .ENC → s.e_len = t.e_len ∧ s.e_idx = t.e_idx ∧ s.e_phase = t.e_phase ∧
    (s.e_phase = .E_ESC2 → s.e_pend = t.e_pend)) ∧
  (s.op = .DEC → s.d_state = t.d_state ∧ s.d_len = t.d_len ∧ s.d_cap = t.d_cap ∧ s.OVF = t.OVF ∧ s.MAL = t.MAL)

/-- `k` steps of the machine (Host/Core.lean). -/
def run (k : Nat) (s : State) : Result := Sys2Proof.core.run k s

/-- Buffer `m'` holds `v` at index `a` and what `m` holds at every other index (R27). -/
abbrev OneByteWritten (m m' : Mem) (a : Nat) (v : Byte) : Prop :=
  m'.read a = v ∧ ∀ b, b ≠ a → m'.read b = m.read b

/-- The dispatch context of an instruction: which value of `op` its unit has (R55, R57). -/
def unitOf (i : Instr) : Op :=
  match (encode i).1 with
  | .command => .IDLE
  | .escapePending => .ENC
  | .payloadDone => .ENC
  | .payload => .ENC
  | .wireLiteral => .DEC
  | .wirePending => .DEC

/-- The context and the selecting word that stand before the framer, as R55 and R57 list them: a presented command in IDLE,
the phase, the end of the payload or the payload byte in a ready encoder, the oldest wire byte in a decode call. -/
def wordAt (s : State) : Option (Context × Nat) :=
  if s.rst = true then none
  else match s.op with
    | .IDLE => s.cmd.map fun c => (.command, packCommand c)
    | .ENC =>
      if txReady s = false then none
      else if s.e_phase = .E_ESC2 then some (.escapePending, 0)
      else if s.e_idx = s.e_len then some (.payloadDone, 0)
      else if s.e_idx < s.e_len then (plRead s s.e_idx).map fun b => (.payload, b.toNat)
      else none
    | .DEC => s.rxq.head?.bind fun c =>
      match s.d_state with
      | .LITERAL => some (.wireLiteral, c.toNat)
      | .PENDING_ESCAPE => some (.wirePending, c.toNat)
      | .DONE => none

/-- A state after an outcome, where there is one. -/
def next? : Result → Option State
  | .next t => some t
  | .fault _ => none
  | .refused _ => none

/-- An outcome with its next state changed. -/
def mapNext (f : State → State) : Result → Result
  | .next t => .next (f t)
  | .fault r => .fault r
  | .refused r => .refused r

end Sys2Proof.Safety
end

