-- ==== Sys2Proof/Certificates/Slice0/Obligations.lean ====
section
/-! DEFINITION. The statements for the provers. Each docstring names the rule of spec/ it formalises; where a clause is the
model's own choice it names the log entry. -/

open Sys2Proof Sys2Proof.Machine Sys2Proof.Safety

/-! ### Reset -/

/-- 10_state.md section 8: the registers and outputs of the reset state have the values of the table of R23. -/
def Obligations.ResetStateRegisters : Prop :=
  registers State.reset = (.IDLE, 0, 0, .E_FETCH, 0x00, .LITERAL, 0, 0, false, false) ∧
  busy State.reset = false ∧ done State.reset = false ∧ count State.reset = 0 ∧ ovf State.reset = false ∧
  mal State.reset = false ∧ cmd_ready State.reset = true ∧ rx_ready State.reset = false ∧
  tx_valid State.reset = false ∧ db_we State.reset = false

/-- R94, R95: on an edge with `rst == 1`, from any state and any other inputs, every register takes its value of R23 and
nothing else changes: no command is accepted, no byte is read or written. Reset is the only way to end a call before its
natural completion. -/
def Obligations.ResetEdgeTakesResetValues : Prop :=
  (∀ s : State, s.rst = true → ∃ t, clockEdge s = .next t ∧ registers t = registers State.reset ∧
    t.PL = s.PL ∧ t.DB = s.DB ∧ t.rxq = s.rxq ∧ t.txq = s.txq ∧ t.cmd = s.cmd ∧ t.lw = s.lw ∧
    t.tx_ready = s.tx_ready ∧ t.rst = s.rst ∧ t.script = s.script) ∧
  ∀ s t : State, clockEdge s = .next t → s.op ≠ .IDLE → t.op = .IDLE →
    s.rst = true ∨ select s = .run .encClose ∨ select s = .run .decEnd

/-! ### Commands and dispatch -/

/-- R58: ENCODE of a presented length. Length zero changes no register and transmits nothing; any other writes `e_len`,
`e_idx`, `e_phase`, `op` and nothing else. What the command channel shows after the acceptance is left out (log 4). -/
def Obligations.EncodeCommandResult : Prop :=
  ∀ (s : State) (len : Nat), s.rst = false → s.op = .IDLE → s.cmd = some ⟨0, len⟩ → len < 2 ^ s.lw →
    select s = .run (.encode len) ∧
    (len = 0 → ∃ c, exec (.encode len) s = .next { s with cmd := c }) ∧
    (len ≠ 0 → ∃ c, exec (.encode len) s =
      .next { s with e_len := len, e_idx := 0, e_phase := .E_FETCH, op := .ENC, cmd := c })

/-- R59: DECODE of a presented capacity, 0 included, with bytes waiting or not. What the command channel shows after the
acceptance is left out (log 4). -/
def Obligations.DecodeCommandResult : Prop :=
  ∀ (s : State) (cap : Nat), s.rst = false → s.op = .IDLE → s.cmd = some ⟨1, cap⟩ → cap < 2 ^ s.lw →
    select s = .run (.decode cap) ∧
    ∃ c, exec (.decode cap) s =
      .next { s with d_cap := cap, d_len := 0, d_state := .LITERAL, OVF := false, MAL := false, op := .DEC, cmd := c }

/-- R60: while `op != IDLE` a presented command is not accepted and has no effect: the edge does what it does with no
command presented, and the command stays presented, so that the completing step accepts none. It is accepted on the first
edge with `op == IDLE` and `rst == 0`. -/
def Obligations.CommandWhileBusyHasNoEffect : Prop :=
  (∀ (s : State) (c : Option Command), s.op ≠ .IDLE →
    cmd_ready s = false ∧
    clockEdge { s with cmd := c } = mapNext (fun t => { t with cmd := c }) (clockEdge { s with cmd := none })) ∧
  ∀ (s : State) (c : Command), s.op = .IDLE → s.rst = false → s.cmd = some c → c.arg < 2 ^ s.lw →
    ∃ i, select s = .run i ∧ encode i = (.command, packCommand c)

/-- R57: in every state the unit that `op` names acts, or there is no step and nothing changes; only that unit's channel can
have a transfer. -/
def Obligations.DispatchByOp : Prop :=
  (∀ s : State, s.rst = false → s.op = .IDLE → s.cmd = none → clockEdge s = .next s) ∧
  (∀ s : State, s.rst = false → s.op = .ENC → txReady s = false → clockEdge s = .next s) ∧
  (∀ s : State, s.rst = false → s.op = .DEC → rxAvail s = false → clockEdge s = .next s) ∧
  (∀ (s : State) (c : Command), s.rst = false → s.op = .IDLE → s.cmd = some c → c.arg < 2 ^ s.lw →
    clockEdge s = exec (if c.op = 0 then .encode c.arg else .decode c.arg) s) ∧
  (∀ (s : State) (i : Instr), select s = .run i → s.rst = false ∧ s.op = unitOf i ∧ wellFormed s.lw i = true) ∧
  ∀ s t : State, s.rst = false → clockEdge s = .next t →
    (s.op = .IDLE → t.rxq = s.rxq ∧ t.txq = s.txq) ∧ (s.op = .ENC → t.cmd = s.cmd ∧ t.rxq = s.rxq) ∧
    (s.op = .DEC → t.cmd = s.cmd ∧ t.txq = s.txq)

/-- 30_encoding.md section 7 and the "Enabled when" line of every instruction: when each of the thirteen is the step taken. -/
def Obligations.InstructionsEnabledExactlyWhen : Prop :=
  ∀ s : State,
    let enc : Prop := s.rst = false ∧ s.op = .ENC ∧ txReady s = true
    let byte (b : Byte) : Prop := enc ∧ s.e_phase = .E_FETCH ∧ s.e_idx < s.e_len ∧ plRead s s.e_idx = some b
    let wire (d : DState) (c : Byte) : Prop :=
      s.rst = false ∧ s.op = .DEC ∧ s.d_state = d ∧ s.rxq.head? = some c
    (∀ n, select s = .run (.encode n) ↔ s.rst = false ∧ s.op = .IDLE ∧ s.cmd = some ⟨0, n⟩ ∧ n < 2 ^ s.lw) ∧
    (∀ n, select s = .run (.decode n) ↔ s.rst = false ∧ s.op = .IDLE ∧ s.cmd = some ⟨1, n⟩ ∧ n < 2 ^ s.lw) ∧
    (select s = .run .encX2 ↔ enc ∧ s.e_phase = .E_ESC2) ∧
    (select s = .run .encClose ↔ enc ∧ s.e_phase = .E_FETCH ∧ s.e_idx = s.e_len) ∧
    (select s = .run .encEnd ↔ byte Config.END) ∧ (select s = .run .encEsc ↔ byte Config.ESC) ∧
    (∀ b, select s = .run (.encLit b) ↔ byte b ∧ b ≠ Config.END ∧ b ≠ Config.ESC) ∧
    (select s = .run .decEnd ↔ wire .LITERAL Config.END) ∧ (select s = .run .decEsc ↔ wire .LITERAL Config.ESC) ∧
    (∀ c, select s = .run (.decLit c) ↔ wire .LITERAL c ∧ c ≠ Config.END ∧ c ≠ Config.ESC) ∧
    (select s = .run .decXend ↔ wire .PENDING_ESCAPE Config.ESC_END) ∧
    (select s = .run .decXesc ↔ wire .PENDING_ESCAPE Config.ESC_ESC) ∧
    ∀ c, select s = .run (.decXlit c) ↔ wire .PENDING_ESCAPE c ∧ c ≠ Config.ESC_END ∧ c ≠ Config.ESC_ESC

/-! ### The encoder -/

/-- R64: ENC.LIT, `0x1A` and `0x1B` included. -/
def Obligations.EncLitResult : Prop :=
  ∀ (s : State) (b : Byte), s.rst = false → s.op = .ENC → s.e_phase = .E_FETCH → s.e_idx < s.e_len →
    txReady s = true → plRead s s.e_idx = some b → b ≠ Config.END → b ≠ Config.ESC →
    select s = .run (.encLit b) ∧
    exec (.encLit b) s = .next { s with txq := s.txq ++ [b], e_idx := s.e_idx + 1 }

/-- R65, R66: ENC.END and ENC.ESC emit `ESC`, advance the cursor and latch the second byte of the escape sequence. -/
def Obligations.EncEndAndEncEscResult : Prop :=
  ∀ s : State, s.rst = false → s.op = .ENC → s.e_phase = .E_FETCH → s.e_idx < s.e_len → txReady s = true →
    (plRead s s.e_idx = some Config.END →
      select s = .run .encEnd ∧
      exec .encEnd s = .next { s with
        txq := s.txq ++ [Config.ESC], e_pend := Config.ESC_END, e_phase := .E_ESC2, e_idx := s.e_idx + 1 }) ∧
    (plRead s s.e_idx = some Config.ESC →
      select s = .run .encEsc ∧
      exec .encEsc s = .next { s with
        txq := s.txq ++ [Config.ESC], e_pend := Config.ESC_ESC, e_phase := .E_ESC2, e_idx := s.e_idx + 1 })

/-- R67: ENC.X2 emits the latched byte; the cursor and `e_pend` are unchanged. -/
def Obligations.EncX2Result : Prop :=
  ∀ s : State, s.rst = false → s.op = .ENC → s.e_phase = .E_ESC2 → txReady s = true →
    select s = .run .encX2 ∧
    exec .encX2 s = .next { s with txq := s.txq ++ [s.e_pend], e_phase := .E_FETCH }

/-- R68: ENC.CLOSE emits the terminator and ends the call; the encoder's registers keep their values. -/
def Obligations.EncCloseResult : Prop :=
  ∀ s : State, s.rst = false → s.op = .ENC → s.e_phase = .E_FETCH → s.e_idx = s.e_len → txReady s = true →
    select s = .run .encClose ∧
    exec .encClose s = .next { s with txq := s.txq ++ [Config.END], op := .IDLE }

/-- R63: which encoder step is taken, the hold while `TxReady()` is false, and one `TxWrite` per step. -/
def Obligations.EncoderStepSelection : Prop :=
  ∀ s : State, s.rst = false → s.op = .ENC →
    (txReady s = false → clockEdge s = .next s) ∧
    (txReady s = true →
      (s.e_phase = .E_ESC2 → select s = .run .encX2) ∧
      (s.e_phase = .E_FETCH → s.e_idx = s.e_len → select s = .run .encClose) ∧
      (s.e_phase = .E_FETCH → s.e_idx < s.e_len → ∀ b, plRead s s.e_idx = some b →
        select s = .run (if b = Config.END then .encEnd else if b = Config.ESC then .encEsc else .encLit b)) ∧
      ∀ t, clockEdge s = .next t → ∃ b, t.txq = s.txq ++ [b])

/-- R70: no encoder step touches a flag, a decoder register or DB; it leaves the received bytes and PL alone as well. -/
def Obligations.EncoderTouchesNoDecoderState : Prop :=
  ∀ s t : State, s.rst = false → s.op = .ENC → clockEdge s = .next t →
    t.OVF = s.OVF ∧ t.MAL = s.MAL ∧ t.d_state = s.d_state ∧ t.d_len = s.d_len ∧ t.d_cap = s.d_cap ∧
    t.DB = s.DB ∧ t.rxq = s.rxq ∧ t.PL = s.PL

/-! ### Channels and ports -/

/-- 20_memory.md section 5 (R41, R42): a byte moves on a stream exactly on an edge where the channel's valid and ready are 1
and `rst` is 0, and the byte sent is `tx_data`; a step is exactly one transfer on exactly one channel; without one and
without reset nothing changes. -/
def Obligations.ChannelsTransferByHandshake : Prop :=
  ∀ s t : State, clockEdge s = .next t →
    t.txq = (if txTransfer s then s.txq ++ [tx_data s] else s.txq) ∧
    t.rxq = (if rxTransfer s then s.rxq.tail else s.rxq) ∧
    (cmdTransfer s = false → t.cmd = s.cmd) ∧
    ((∃ i, select s = .run i) ↔ cmdTransfer s || rxTransfer s || txTransfer s) ∧
    (s.rst = false → cmdTransfer s = false → rxTransfer s = false → txTransfer s = false → t = s)

/-- 20_memory.md section 5 (R42) and R28: DB changes exactly when `db_we` is 1, at index `db_addr`, to `db_data`, and the
index is below the capacity. -/
def Obligations.DestinationWritesFollowPort : Prop :=
  ∀ s t : State, s.DB.wf = true → clockEdge s = .next t →
    (db_we s = true → db_addr s < s.d_cap ∧ db_data s = some (t.DB.read (db_addr s))) ∧
    ∀ a, (db_we s = false ∨ a ≠ db_addr s) → t.DB.read a = s.DB.read a

/-- R19: the status word is `{MAL, OVF}` with `OVF` at bit 0, and the level outputs are what the table of R19 says. -/
def Obligations.StatusOutputs : Prop :=
  ∀ s : State, (status s).getLsbD 0 = s.OVF ∧ (status s).getLsbD 1 = s.MAL ∧
    (busy s = true ↔ s.op ≠ .IDLE) ∧ (done s = true ↔ s.d_state = .DONE) ∧ count s = s.d_len ∧
    ovf s = s.OVF ∧ mal s = s.MAL

/-! ### The decoder -/

/-- R72: `append` stores at `d_len` and counts, or, on a full buffer, drops the byte and sets OVF. -/
def Obligations.AppendStoresOrRecordsOverflow : Prop :=
  ∀ (s : State) (v : Byte), InRange s → s.DB.wf = true →
    (s.d_len < s.d_cap → ∃ m, OneByteWritten s.DB m s.d_len v ∧
      append v s = .next { s with DB := m, d_len := s.d_len + 1 }) ∧
    (s.d_cap ≤ s.d_len → append v s = .next { s with OVF := true })

/-- R73: DEC.END consumes the terminator and ends the call; count, flags and DB are unchanged. -/
def Obligations.DecEndResult : Prop :=
  ∀ (s : State) (q : List Byte), s.rst = false → s.op = .DEC → s.d_state = .LITERAL → s.rxq = Config.END :: q →
    select s = .run .decEnd ∧
    exec .decEnd s = .next { s with rxq := q, d_state := .DONE, op := .IDLE }

/-- R74: DEC.ESC consumes the introducer; nothing is stored and no flag is set, even on a full buffer. -/
def Obligations.DecEscResult : Prop :=
  ∀ (s : State) (q : List Byte), s.rst = false → s.op = .DEC → s.d_state = .LITERAL → s.rxq = Config.ESC :: q →
    select s = .run .decEsc ∧
    exec .decEsc s = .next { s with rxq := q, d_state := .PENDING_ESCAPE }

/-- R75: DEC.LIT stores the byte verbatim, `0x1A` and `0x1B` included, or drops it on a full buffer. -/
def Obligations.DecLitResult : Prop :=
  ∀ (s : State) (c : Byte) (q : List Byte), InRange s → s.DB.wf = true → s.rst = false → s.op = .DEC →
    s.d_state = .LITERAL → s.rxq = c :: q → c ≠ Config.END → c ≠ Config.ESC →
    select s = .run (.decLit c) ∧
    (s.d_len < s.d_cap → ∃ m, OneByteWritten s.DB m s.d_len c ∧
      exec (.decLit c) s = .next { s with rxq := q, DB := m, d_len := s.d_len + 1 }) ∧
    (s.d_cap ≤ s.d_len → exec (.decLit c) s = .next { s with rxq := q, OVF := true })

/-- R76, R77: DEC.XEND stores a literal terminator, DEC.XESC a literal escape byte, or drops it on a full buffer; the decoder
is back in LITERAL either way. -/
def Obligations.DecXendAndDecXescResult : Prop :=
  ∀ (s : State) (q : List Byte), InRange s → s.DB.wf = true → s.rst = false → s.op = .DEC →
    s.d_state = .PENDING_ESCAPE →
    (s.rxq = Config.ESC_END :: q →
      select s = .run .decXend ∧
      (s.d_len < s.d_cap → ∃ m, OneByteWritten s.DB m s.d_len Config.END ∧
        exec .decXend s = .next { s with rxq := q, d_state := .LITERAL, DB := m, d_len := s.d_len + 1 }) ∧
      (s.d_cap ≤ s.d_len →
        exec .decXend s = .next { s with rxq := q, d_state := .LITERAL, OVF := true })) ∧
    (s.rxq = Config.ESC_ESC :: q →
      select s = .run .decXesc ∧
      (s.d_len < s.d_cap → ∃ m, OneByteWritten s.DB m s.d_len Config.ESC ∧
        exec .decXesc s = .next { s with rxq := q, d_state := .LITERAL, DB := m, d_len := s.d_len + 1 }) ∧
      (s.d_cap ≤ s.d_len →
        exec .decXesc s = .next { s with rxq := q, d_state := .LITERAL, OVF := true }))

/-- R78: DEC.XLIT stores the byte verbatim, `0x0A` and `0x0B` included, sets MAL, and sets OVF as well on a full buffer. -/
def Obligations.DecXlitResult : Prop :=
  ∀ (s : State) (c : Byte) (q : List Byte), InRange s → s.DB.wf = true → s.rst = false → s.op = .DEC →
    s.d_state = .PENDING_ESCAPE → s.rxq = c :: q → c ≠ Config.ESC_END → c ≠ Config.ESC_ESC →
    select s = .run (.decXlit c) ∧
    (s.d_len < s.d_cap → ∃ m, OneByteWritten s.DB m s.d_len c ∧
      exec (.decXlit c) s =
        .next { s with rxq := q, d_state := .LITERAL, MAL := true, DB := m, d_len := s.d_len + 1 }) ∧
    (s.d_cap ≤ s.d_len →
      exec (.decXlit c) s = .next { s with rxq := q, d_state := .LITERAL, MAL := true, OVF := true })

/-- R71: the hold without a received byte, and which decoder step the byte read selects; a step reads exactly one byte. -/
def Obligations.DecoderStepSelection : Prop :=
  ∀ s : State, s.rst = false → s.op = .DEC →
    (rxAvail s = false → clockEdge s = .next s) ∧
    (∀ c q, s.rxq = c :: q → s.d_state = .LITERAL →
      select s = .run (if c = Config.END then .decEnd else if c = Config.ESC then .decEsc else .decLit c)) ∧
    (∀ c q, s.rxq = c :: q → s.d_state = .PENDING_ESCAPE →
      select s =
        .run (if c = Config.ESC_END then .decXend else if c = Config.ESC_ESC then .decXesc else .decXlit c)) ∧
    ∀ c q t, s.rxq = c :: q → clockEdge s = .next t → t.rxq = q

/-- 42_decoder.md section 5 (R82): without a received byte a decode call waits for ever, with nothing changed. -/
def Obligations.DecoderHoldsForever : Prop :=
  ∀ (s : State) (k : Nat), s.rst = false → s.op = .DEC → s.rxq = [] → s.script = [] → run k s = .next s

/-! ### Flags and registers -/

/-- 10_state.md section 5 and R84, R89(a), R91: outside reset, OVF is 1 after an edge exactly if it was 1 and no DECODE was
accepted, or a storing step met a full buffer; MAL exactly if it was 1 and no DECODE was accepted, or DEC.XLIT ran. -/
def Obligations.FlagsChangeOnlyByRule : Prop :=
  ∀ s t : State, s.rst = false → clockEdge s = .next t →
    (t.OVF = true ↔
      (s.OVF = true ∧ ∀ cap, select s ≠ .run (.decode cap)) ∨
      (s.d_cap ≤ s.d_len ∧ ∃ i, select s = .run i ∧ i.mnemonic ∈ [.DEC_LIT, .DEC_XEND, .DEC_XESC, .DEC_XLIT])) ∧
    (t.MAL = true ↔
      (s.MAL = true ∧ ∀ cap, select s ≠ .run (.decode cap)) ∨ ∃ c, select s = .run (.decXlit c))

/-- 40_commands.md section 5 (R61): outside a decode call its result, `done`, `count`, the flags and DB, stays as it is
until the next DECODE is accepted or reset; in particular an encode does not disturb it. -/
def Obligations.DecodeResultStaysReadable : Prop :=
  ∀ s t : State, s.rst = false → s.op ≠ .DEC → clockEdge s = .next t →
    (∀ cap, select s ≠ .run (.decode cap)) →
    done t = done s ∧ count t = count s ∧ ovf t = ovf s ∧ mal t = mal s ∧ t.DB = s.DB ∧ t.d_cap = s.d_cap

/-- 10_state.md section 1, column "written by": outside reset, a register changes only by the steps the table lists. -/
def Obligations.RegistersChangeOnlyByTheirWriters : Prop :=
  ∀ s t : State, s.rst = false → clockEdge s = .next t →
    let writes (l : List Mnemonic) : Prop := ∃ i, select s = .run i ∧ i.mnemonic ∈ l
    (t.op ≠ s.op → writes [.ENCODE, .DECODE, .ENC_CLOSE, .DEC_END]) ∧
    (t.e_len ≠ s.e_len → writes [.ENCODE]) ∧
    (t.e_idx ≠ s.e_idx → writes [.ENCODE, .ENC_LIT, .ENC_END, .ENC_ESC]) ∧
    (t.e_phase ≠ s.e_phase → writes [.ENCODE, .ENC_END, .ENC_ESC, .ENC_X2]) ∧
    (t.e_pend ≠ s.e_pend → writes [.ENC_END, .ENC_ESC]) ∧
    (t.d_state ≠ s.d_state → writes [.DECODE, .DEC_END, .DEC_ESC, .DEC_XEND, .DEC_XESC, .DEC_XLIT]) ∧
    (t.d_len ≠ s.d_len → writes [.DECODE, .DEC_LIT, .DEC_XEND, .DEC_XESC, .DEC_XLIT]) ∧
    (t.d_cap ≠ s.d_cap → writes [.DECODE]) ∧
    (t.OVF ≠ s.OVF → writes [.DECODE, .DEC_LIT, .DEC_XEND, .DEC_XESC, .DEC_XLIT]) ∧
    (t.MAL ≠ s.MAL → writes [.DECODE, .DEC_XLIT])

/-! ### Invariants -/

/-- The invariants hold right after reset; LW, the buffers and the environment there are the model's choice (logs 1, 5, 6). -/
def Obligations.InvariantsHoldAtReset : Prop := Sound State.reset ∧ EnvFits State.reset

/-- R21(a) to (d) and (f), the registers' widths and the buffers' canonical form: every step of any agent keeps them. -/
def Obligations.EveryStepKeepsInvariants : Prop :=
  ∀ s t : State, Sound s → step s = .next t → Sound t

/-- R21(e): an encode call is entered only with `e_phase == E_FETCH`. -/
def Obligations.EncodeCallEnteredInFetch : Prop :=
  ∀ s t : State, step s = .next t → s.op ≠ .ENC → t.op = .ENC → t.e_phase = .E_FETCH

/-- The last clause of R21(d): the owed second byte is the one the byte before the cursor called for, as long as the host
does not write PL (R98). -/
def Obligations.OwedEscapeMatchesPayload : Prop :=
  ∀ s t : State, EscapeMatchesPayload s → step s = .next t →
    (∀ i b rest, s.script ≠ .agent (.writePL i b) :: rest) → EscapeMatchesPayload t

/-- R52, R83, R57: nothing traps. From a state with the invariants and an environment that fits the ports, every run, of any
length, goes on: no step faults or is refused. -/
def Obligations.NothingTraps : Prop :=
  ∀ (s : State) (k : Nat), Sound s → EnvFits s → ∃ t, run k s = .next t ∧ Sound t ∧ EnvFits t

/-- R5, D4: the parameter LW is fixed. -/
def Obligations.ParameterNeverChanges : Prop :=
  ∀ (s t : State) (k : Nat), run k s = .next t → t.lw = s.lw

/-! ### Encoding -/

/-- 30_encoding.md: decoding the word of a well-formed instruction in its context gives the instruction back, for every LW. -/
def Obligations.DecodeOfEncode : Prop :=
  ∀ (lw : Nat) (i : Instr), wellFormed lw i = true → decode lw (encode i).1 (encode i).2 = .ok i

/-- 30_encoding.md: each word of a context has one meaning: the instruction it decodes to is well-formed and has that word
and that context. -/
def Obligations.EncodeOfDecode : Prop :=
  ∀ (lw : Nat) (ctx : Context) (w : Nat) (i : Instr),
    decode lw ctx w = .ok i → encode i = (ctx, w) ∧ wellFormed lw i = true

/-- R52 with the widths of 30_encoding.md sections 1 to 3 and 7: every word of a context's width decodes. That a number with
a bit beyond that width does not decode is the model's choice (log 10). -/
def Obligations.EveryWordDecodes : Prop :=
  ∀ (lw : Nat) (ctx : Context) (w : Nat), (∃ i, decode lw ctx w = .ok i) ↔ w < 2 ^ ctx.width lw

/-- R55: the decoder is the one written from the opcode table, by priority, and also by reading the rows alone with their
`except` columns, of which exactly one fits. -/
def Obligations.DecoderFollowsOpcodeTable : Prop :=
  ∀ (lw : Nat) (ctx : Context) (w : Nat) (i : Instr), decode lw ctx w = .ok i →
    tableSelect ctx w = some i.mnemonic ∧ rowsReadAlone ctx w = [i.mnemonic]

/-- 95_test_vectors.md and 30_encoding.md: words written out from the spec's encodings. -/
def Obligations.WordsOfTheSpec : Prop :=
  decode 8 .command 0x006 = .ok (.encode 3) ∧ decode 8 .command 0x011 = .ok (.decode 8) ∧
  decode 8 .payload 0b00001010 = .ok .encEnd ∧ decode 8 .payload 0x41 = .ok (.encLit 0x41) ∧
  decode 8 .wireLiteral 0b00001011 = .ok .decEsc ∧ decode 8 .wirePending 0b00011010 = .ok .decXend ∧
  decode 8 .wirePending 0x0A = .ok (.decXlit 0x0A)

/-! ### Steps of the machine -/

/-- R57, R43: at the framer's turn the machine runs the meaning of the instruction that the word before it decodes to, at
that state, and otherwise does what the clock edge does; the turn, if the script lists it, is gone from the script (log 3). -/
def Obligations.StepRunsDecodedInstruction : Prop :=
  ∀ s : State,
    (s.script = [] → step s = clockEdge s ∧
      ∀ ctx w i, wordAt s = some (ctx, w) → decode s.lw ctx w = .ok i → select s = .run i ∧ step s = exec i s) ∧
    ∀ rest, s.script = .edge :: rest → step s = clockEdge { s with script := rest } ∧
      ∀ ctx w i, wordAt s = some (ctx, w) → decode s.lw ctx w = .ok i →
        step s = exec i { s with script := rest }

/-- R8, R22: the moves of the host and the transport touch no register of the framer. -/
def Obligations.OtherAgentsTouchNoRegister : Prop :=
  ∀ (s t : State) (m : EnvMove) (rest : List Turn), s.script = .agent m :: rest → step s = .next t →
    registers t = registers s ∧ t.lw = s.lw ∧ t.script = rest

/-- 70_reset_and_hazards.md section 5 (R106, R102): what each move changes; PL and DB byte by byte. Which moves there are is
the model's choice (logs 13, 14). -/
def Obligations.EnvironmentMoveEffects : Prop :=
  ∀ s : State,
    (∀ c, envMove (.present c) s = .next { s with cmd := some c }) ∧
    envMove .withdraw s = .next { s with cmd := none } ∧
    (∀ v, envMove (.setRst v) s = .next { s with rst := v }) ∧
    (∀ v, envMove (.setTxReady v) s = .next { s with tx_ready := v }) ∧
    (∀ b, envMove (.deliver b) s = .next { s with rxq := s.rxq ++ [b] }) ∧
    (∀ q₁ b q₂, s.rxq = q₁ ++ b :: q₂ → envMove (.loseReceived q₁.length) s = .next { s with rxq := q₁ ++ q₂ }) ∧
    (∀ b q, s.txq = b :: q → envMove .sendOldest s = .next { s with txq := q }) ∧
    (∀ i b, s.PL.wf = true → i < 2 ^ s.lw →
      ∃ m, OneByteWritten s.PL m i b ∧ envMove (.writePL i b) s = .next { s with PL := m }) ∧
    ∀ i b, s.DB.wf = true → i < 2 ^ s.lw →
      ∃ m, OneByteWritten s.DB m i b ∧ envMove (.writeDB i b) s = .next { s with DB := m }

/-! ### What a step cannot see -/

/-- R26, R63, R94: an edge reads PL at the cursor only, and only where a ready encoder out of reset has a payload byte to
take. -/
def Obligations.PayloadReadOnlyAtCursor : Prop :=
  ∀ (s : State) (m : Mem),
    (s.rst = false → s.op = .ENC → txReady s = true → s.e_phase = .E_FETCH → s.e_idx < s.e_len →
      m.read s.e_idx = s.PL.read s.e_idx) →
    clockEdge { s with PL := m } = mapNext (fun t => { t with PL := m }) (clockEdge s)

/-- R17, R18, R27: no step reads OVF, MAL or DB. -/
def Obligations.FlagsAndDestinationNeverRead : Prop :=
  ∀ (s : State) (o l : Bool) (m : Mem),
    let hide (t : State) : State := { t with OVF := false, MAL := false, DB := [] }
    mapNext hide (clockEdge { s with OVF := o, MAL := l, DB := m }) = mapNext hide (clockEdge s)

/-- 20_memory.md section 2 (R29, R30): of the received bytes an edge sees the oldest only; of the bytes already handed over
it sees none. -/
def Obligations.StreamsSeenOnlyAtTheirEnds : Prop :=
  (∀ (s : State) (c : Byte) (q₁ q₂ : List Byte),
    mapNext (fun t => { t with rxq := [] }) (clockEdge { s with rxq := c :: q₁ }) =
      mapNext (fun t => { t with rxq := [] }) (clockEdge { s with rxq := c :: q₂ })) ∧
  ∀ (s : State) (q : List Byte),
    clockEdge { s with txq := q ++ s.txq } = mapNext (fun t => { t with txq := q ++ t.txq }) (clockEdge s)

/-- R24: no call depends on an earlier call: two states that differ only in registers the call in progress does not read take
the same step and differ only in such registers after it. -/
def Obligations.NoCallDependsOnEarlierCall : Prop :=
  ∀ s₁ s₂ t₁ : State, SameCall s₁ s₂ → step s₁ = .next t₁ → ∃ t₂, step s₂ = .next t₂ ∧ SameCall t₁ t₂

/-! ### Whole calls -/

/-- R69: an encode call of `n` bytes appends exactly `enc` of them to `txq`, one byte a step, and then ends; DB, the received
bytes and the decoder's result are untouched. -/
def Obligations.EncodeCallOutput : Prop :=
  ∀ (s : State) (n : Nat), s.rst = false → s.op = .IDLE → s.cmd = some ⟨0, n⟩ → n < 2 ^ s.lw →
    txReady s = true → s.script = [] →
    let w := enc (payload s.PL n)
    (∃ t, run (1 + w.length) s = .next t ∧ t.op = .IDLE ∧ t.txq = s.txq ++ w ∧ t.PL = s.PL ∧ t.DB = s.DB ∧
      t.rxq = s.rxq ∧ done t = done s ∧ count t = count s ∧ ovf t = ovf s ∧ mal t = mal s) ∧
    ∀ j, 1 ≤ j → j ≤ w.length → ∃ u, run j s = .next u ∧ u.op = .ENC

/-- R69(b), R98, R30, R60, R96(a): from the start of an encode call, whatever the other agents do at any boundary (back-pressure,
commands presented or held, reset, writes of PL, bytes sent away), as long as no command is accepted after the call's end. The
bytes written, those sent away since included, are the beginning of a well-formed frame of `e_len` bytes: while `op == ENC` what
the cursor and phase say and never the whole, and otherwise the whole frame unless a reset has abandoned the call. Where reset
is not driven the call has ended exactly when the whole frame is written; where PL is not written the frame is that of PL. -/
def Obligations.EncodeCallUnderAnyEnvironment : Prop :=
  ∀ (s t : State) (k : Nat), s.op = .ENC → s.e_phase = .E_FETCH → s.e_idx = 0 → 1 ≤ s.e_len →
    (∀ j u, j < k → run j s = .next u → u.op = .ENC ∨ u.cmd = none) → run k s = .next t →
    let taken := s.script.take k
    ∃ p w gone, p.length = s.e_len ∧ w <+: enc p ∧ s.txq ++ w = gone ++ t.txq ∧
      gone.length ≤ taken.count (.agent .sendOldest) ∧
      (t.op = .ENC → w = emitted p t ∧ w ≠ enc p) ∧
      (t.op ≠ .ENC → t.op = .IDLE ∧ (w = enc p ∨ registers t = registers State.reset)) ∧
      (s.rst = false → (∀ v, .agent (.setRst v) ∉ taken) → (t.op = .IDLE ↔ w = enc p)) ∧
      ((∀ i b, .agent (.writePL i b) ∉ taken) → p = payload s.PL s.e_len)

/-- R79: the result of a decode call whose frame is at the head of `rxq`, the number of its steps, and that without a whole
frame it does not end. -/
def Obligations.DecodeCallResult : Prop :=
  ∀ (s : State) (cap : Nat), s.rst = false → s.op = .IDLE → s.cmd = some ⟨1, cap⟩ → cap < 2 ^ s.lw →
    s.script = [] → s.DB.wf = true →
    (∀ p m rest, dec s.rxq = some (p, m, rest) →
      ∃ w t, s.rxq = w ++ rest ∧ run (1 + w.length) s = .next t ∧ t.op = .IDLE ∧ t.d_state = .DONE ∧
        t.rxq = rest ∧ t.d_len = min p.length cap ∧ t.OVF = decide (cap < p.length) ∧ t.MAL = m ∧
        (∀ i, i < t.d_len → p[i]? = some (t.DB.read i)) ∧
        (∀ i, t.d_len ≤ i → t.DB.read i = s.DB.read i) ∧
        t.txq = s.txq ∧ t.PL = s.PL ∧
        ∀ j, 1 ≤ j → j ≤ w.length → ∃ u, run j s = .next u ∧ u.op = .DEC) ∧
    (dec s.rxq = none → ∀ k, ∃ t, run (1 + k) s = .next t ∧ t.op = .DEC)

/-- R90, R79, R27, R99: however the received bytes arrive while a decode call runs or waits, and whatever else the other agents
do short of driving reset and losing bytes, at every boundary up to the acceptance of a later command OVF is 1 exactly if a
payload byte has been dropped, MAL exactly if a malformed escape has been read, and count and state are those of the bytes read
so far. Where the host does not write DB, its first `count` indices hold the first bytes of the payload read so far and every
other index what it held. -/
def Obligations.ConditionsArePrecise : Prop :=
  ∀ (s t : State) (k : Nat), s.rst = false → s.op = .DEC → s.d_state = .LITERAL → s.d_len = 0 → s.OVF = false →
    s.MAL = false → (∀ u ∈ s.script.take k, receiveTurn u = true) →
    (∀ j u, j < k → run j s = .next u → u.op = .DEC ∨ u.cmd = none) → run k s = .next t →
    ∃ w, s.rxq ++ delivered (s.script.take k) = w ++ t.rxq ∧ t.d_cap = s.d_cap ∧
      Shows (w.foldl Reading.read Reading.start) t ∧
      (s.DB.wf = true → (∀ i b, .agent (.writeDB i b) ∉ s.script.take k) →
        (∀ i, i < t.d_len → (w.foldl Reading.read Reading.start).payload[i]? = some (t.DB.read i)) ∧
        ∀ i, t.d_len ≤ i → t.DB.read i = s.DB.read i)

/-- R81: what one framer encodes another decodes: the payload itself when the capacity suffices, its first `cap` bytes with
OVF otherwise; MAL is never set; the whole frame is consumed. A decode call given the frame of the empty payload only, which
is no byte, does not complete. -/
def Obligations.RoundTrip : Prop :=
  (∀ (a b : State) (n cap : Nat), 1 ≤ n →
    a.rst = false → a.op = .IDLE → a.cmd = some ⟨0, n⟩ → n < 2 ^ a.lw → txReady a = true → a.script = [] →
    a.txq = [] →
    b.rst = false → b.op = .IDLE → b.cmd = some ⟨1, cap⟩ → cap < 2 ^ b.lw → b.script = [] → b.DB.wf = true →
    ∃ a' b', run (1 + (enc (payload a.PL n)).length) a = .next a' ∧
      run (1 + a'.txq.length) { b with rxq := a'.txq } = .next b' ∧
      done b' = true ∧ b'.op = .IDLE ∧ count b' = min n cap ∧ ovf b' = decide (cap < n) ∧ mal b' = false ∧
      b'.rxq = [] ∧ (∀ i, i < min n cap → b'.DB.read i = a.PL.read i) ∧
      ∀ i, min n cap ≤ i → b'.DB.read i = b.DB.read i) ∧
  ∀ (b : State) (cap k : Nat), b.rst = false → b.op = .IDLE → b.cmd = some ⟨1, cap⟩ → cap < 2 ^ b.lw → b.script = [] →
    b.rxq = enc [] → ∃ t, run (1 + k) b = .next t ∧ t.op = .DEC ∧ done t = false ∧ t.d_len = 0

/-- R53: in the frame of a non-empty payload a terminator or escape byte is always sent as a two-byte escape sequence and any
other byte unchanged, the terminator stands at the last position only, and every escape byte is directly followed by one of
the two escaped bytes. -/
def Obligations.FrameShape : Prop :=
  ∀ p : List Byte, p ≠ [] →
    enc p = p.flatMap item ++ [Config.END] ∧ item Config.END = [Config.ESC, Config.ESC_END] ∧
    item Config.ESC = [Config.ESC, Config.ESC_ESC] ∧ (∀ b, b ≠ Config.END → b ≠ Config.ESC → item b = [b]) ∧
    (∃ body, enc p = body ++ [Config.END] ∧ Config.END ∉ body) ∧
    ∀ u v, enc p = u ++ Config.ESC :: v → v.head? = some Config.ESC_END ∨ v.head? = some Config.ESC_ESC

/-- R69(a): a frame has one byte per payload byte, one more for each that is escaped, and the terminator; an empty payload
gives no byte. -/
def Obligations.FrameLength : Prop :=
  enc [] = [] ∧ ∀ p : List Byte, p ≠ [] →
    (enc p).length = p.length + (p.filter fun b => b == Config.END || b == Config.ESC).length + 1

/-- R81, R48 (laws L-4, L-7): the decoding function inverts the encoding function on non-empty payloads, whatever follows the
frame. -/
def Obligations.DecodingInvertsEncoding : Prop :=
  ∀ p rest : List Byte, p ≠ [] → dec (enc p ++ rest) = some (p, false, rest)

/-! ### The model's own choices -/

/-- Log 12, the model's choice: placing a well-formed instruction makes it the next step. -/
def Obligations.PlacedInstructionIsNext : Prop :=
  ∀ (i : Instr) (s : State), wellFormed s.lw i = true → s.PL.wf = true →
    select (place i s) = .run i ∧ step (place i s) = exec i (place i s)

/-- Log 8, the model's choice: an instruction given to `exec` in a state that does not select it changes nothing. -/
def Obligations.UnselectedInstructionChangesNothing : Prop :=
  ∀ (i : Instr) (s : State), select s ≠ .run i → exec i s = .next s

/-- Log 4, the model's choice: an accepted command is off the command channel after the edge. -/
def Obligations.AcceptedCommandLeavesChannel : Prop :=
  ∀ s t : State, cmdTransfer s = true → clockEdge s = .next t → t.cmd = none

/-- Logs 9 and 10, the model's choice: where the machine stops. -/
def Obligations.StopsOutsideTheRules : Prop :=
  ∀ s : State, s.rst = false →
    (s.op = .DEC → s.d_state = .DONE → rxAvail s = true → clockEdge s = .fault .decoderInDone) ∧
    (s.op = .ENC → txReady s = true → s.e_phase = .E_FETCH → s.e_len < s.e_idx →
      clockEdge s = .fault .cursorPastLength) ∧
    (s.op = .ENC → txReady s = true → s.e_phase = .E_FETCH → s.e_idx < s.e_len → 2 ^ s.lw ≤ s.e_idx →
      clockEdge s = .fault .noSuchIndex) ∧
    ∀ c, s.op = .IDLE → s.cmd = some c → 2 ^ s.lw ≤ c.arg → clockEdge s = .refused (.badWord (.tooWide .command))
end

