-- ==== Sys2Proof/Laws/Decode.lean ====
section
/-! SUPPORT. The distinctness of the constants (00_scope.md R6) and what the decoder gives on the words of each format. -/

namespace Sys2Proof.Laws

open Sys2Proof

@[simp] theorem esc_ne_end : Config.ESC ≠ Config.END := by decide
@[simp] theorem end_ne_esc : Config.END ≠ Config.ESC := by decide
@[simp] theorem escEnd_ne_escEsc : Config.ESC_END ≠ Config.ESC_ESC := by decide
@[simp] theorem escEsc_ne_escEnd : Config.ESC_ESC ≠ Config.ESC_END := by decide
@[simp] theorem escEnd_ne_end : Config.ESC_END ≠ Config.END := by decide
@[simp] theorem escEsc_ne_end : Config.ESC_ESC ≠ Config.END := by decide

/-- The packed command word has `cmd_op` at bit 0. -/
theorem packCommand_mod (c : Command) : packCommand c % 2 = c.op.toNat := by
  have := c.op.isLt
  unfold packCommand
  omega

/-- The packed command word has `cmd_arg` above bit 0. -/
theorem packCommand_div (c : Command) : packCommand c / 2 = c.arg := by
  have := c.op.isLt
  unfold packCommand
  omega

/-- The packed word fits LW+1 bits when the argument fits LW bits. -/
theorem packCommand_lt (c : Command) (lw : Nat) : packCommand c < 2 ^ (lw + 1) ↔ c.arg < 2 ^ lw := by
  have := c.op.isLt
  unfold packCommand
  rw [pow_succ]
  omega

/-- A word of the context's width decodes. -/
theorem decode_of_lt {lw : Nat} {ctx : Context} {w : Nat} (h : w < 2 ^ ctx.width lw) :
    ∃ i, decode lw ctx w = .ok i := by
  unfold decode
  rw [if_pos h]
  exact ⟨_, rfl⟩

@[simp] theorem decode_escapePending (lw : Nat) : decode lw .escapePending 0 = .ok .encX2 := by
  simp [decode, Context.width]

@[simp] theorem decode_payloadDone (lw : Nat) : decode lw .payloadDone 0 = .ok .encClose := by
  simp [decode, Context.width]

@[simp] theorem decode_payload (lw : Nat) (b : Byte) : decode lw .payload b.toNat = .ok (decodePayload b) := by
  simp [decode, Context.width, b.isLt]

@[simp] theorem decode_wireLiteral (lw : Nat) (c : Byte) :
    decode lw .wireLiteral c.toNat = .ok (decodeLiteral c) := by
  simp [decode, Context.width, c.isLt]

@[simp] theorem decode_wirePending (lw : Nat) (c : Byte) :
    decode lw .wirePending c.toNat = .ok (decodePending c) := by
  simp [decode, Context.width, c.isLt]

/-- A command that fits its wires decodes by its `cmd_op`; one that does not is rejected. -/
theorem decode_command (lw : Nat) (c : Command) :
    decode lw .command (packCommand c) =
      if c.arg < 2 ^ lw then .ok (if c.op = 0 then .encode c.arg else .decode c.arg)
      else .error (.tooWide .command) := by
  have h0 : c.op.toNat = 0 ↔ c.op = 0 := by
    constructor
    · intro h; exact BitVec.eq_of_toNat_eq (by simpa using h)
    · rintro h; simp [h]
  unfold decode decodeCommand
  simp only [Context.width, packCommand_lt, packCommand_mod, packCommand_div, h0]

end Sys2Proof.Laws
end

