-- ==== Sys2Proof/Laws/Frame.lean ====
section
/-! SUPPORT. The equations of the reference functions of whole calls, one per clause of R69 and R79. -/

namespace Sys2Proof.Laws

open Sys2Proof Sys2Proof.Safety

theorem item_end : item Config.END = [Config.ESC, Config.ESC_END] := rfl

theorem item_esc : item Config.ESC = [Config.ESC, Config.ESC_ESC] := rfl

theorem item_other {b : Byte} (h1 : b ≠ Config.END) (h2 : b ≠ Config.ESC) : item b = [b] := by
  unfold item; rw [if_neg h1, if_neg h2]

theorem enc_nil : enc [] = [] := rfl

theorem enc_cons (b : Byte) (p : List Byte) : enc (b :: p) = (b :: p).flatMap item ++ [Config.END] := rfl

theorem dec_nil : dec [] = none := rfl

/-- The terminator ends the frame. -/
theorem dec_end (rest : List Byte) : dec (Config.END :: rest) = some ([], false, rest) := by
  unfold dec; rw [if_pos rfl]

/-- Any byte but the two control bytes stands for itself. -/
theorem dec_other {c : Byte} (h1 : c ≠ Config.END) (h2 : c ≠ Config.ESC) (rest : List Byte) :
    dec (c :: rest) = (dec rest).map fun r => (c :: r.1, r.2) := by
  rw [dec.eq_def]; simp only [if_neg h1, if_neg h2]

theorem dec_esc_nil : dec [Config.ESC] = none := rfl

theorem dec_esc_end (more : List Byte) :
    dec (Config.ESC :: Config.ESC_END :: more) = (dec more).map fun r => (Config.END :: r.1, r.2) := by
  rw [dec.eq_def]; simp [esc_ne_end]

theorem dec_esc_esc (more : List Byte) :
    dec (Config.ESC :: Config.ESC_ESC :: more) = (dec more).map fun r => (Config.ESC :: r.1, r.2) := by
  rw [dec.eq_def]; simp [esc_ne_end, escEsc_ne_escEnd]

/-- A malformed escape: the byte after `ESC` is none of the two escaped bytes. -/
theorem dec_esc_other {y : Byte} (h1 : y ≠ Config.ESC_END) (h2 : y ≠ Config.ESC_ESC) (more : List Byte) :
    dec (Config.ESC :: y :: more) = (dec more).map fun r => (y :: r.1, true, r.2.2) := by
  rw [dec.eq_def]; simp [esc_ne_end, h1, h2]

/-- Between two payload bytes, an encoder has emitted the items of the bytes before the cursor. -/
theorem emitted_fetch {s : Machine.State} (p : List Byte) (h : s.e_phase = .E_FETCH) :
    emitted p s = (p.take s.e_idx).flatMap item := by
  unfold emitted; rw [if_neg (by rw [h]; decide)]

/-- Inside an escape sequence, all of them but the owed byte. -/
theorem emitted_esc2 {s : Machine.State} (p : List Byte) (h : s.e_phase = .E_ESC2) :
    emitted p s = ((p.take s.e_idx).flatMap item).dropLast := if_pos h

end Sys2Proof.Laws
end

