-- ==== Sys2Proof/Laws/Memory.lean ====
section
/-! SUPPORT. The buffers: a read after a write, the canonical form, and that equal contents are equal lists. -/

namespace Sys2Proof.Laws

open Sys2Proof.Machine

/-- The canonical form: addresses strictly rising, no entry equal to what an unlisted address reads as. -/
theorem wf_iff {m : Mem} :
    m.wf = true ↔ m.Pairwise (fun x y => x.1 < y.1) ∧ ∀ c ∈ m, c.2 ≠ Config.unwrittenByte := by
  unfold Mem.wf; exact decide_eq_true_iff

theorem inSpace_iff {lw : Nat} {m : Mem} : m.inSpace lw = true ↔ ∀ c ∈ m, c.1 < 2 ^ lw := by
  unfold Mem.inSpace; exact decide_eq_true_iff

@[simp] theorem wf_nil : Mem.wf [] = true := rfl

@[simp] theorem inSpace_nil (lw : Nat) : Mem.inSpace lw [] = true := rfl

@[simp] theorem read_nil (a : Nat) : Mem.read [] a = Config.unwrittenByte := rfl

@[simp] theorem read_cons (k : Nat) (v : Byte) (m : Mem) (a : Nat) :
    Mem.read ((k, v) :: m) a = if k = a then v else Mem.read m a := rfl

/-- An index below every listed one reads as unwritten. -/
theorem read_of_below {m : Mem} {a : Nat} (h : ∀ c ∈ m, a < c.1) : m.read a = Config.unwrittenByte := by
  induction m with
  | nil => rfl
  | cons c m ih =>
    obtain ⟨k, x⟩ := c
    have hk : a < k := h (k, x) (by simp)
    rw [read_cons, if_neg (by omega), ih fun c hc => h c (by simp [hc])]

/-- A write leaves every other index alone. -/
theorem read_write_other (m : Mem) {a b : Nat} (v : Byte) (h : b ≠ a) : (m.write a v).read b = m.read b := by
  induction m with
  | nil => unfold Mem.write; split <;> simp [Ne.symm h]
  | cons c m ih =>
    obtain ⟨k, x⟩ := c
    unfold Mem.write
    split_ifs with h1 h2 h3 h4
    · rfl
    · simp [Ne.symm h]
    · subst h3; simp [Ne.symm h]
    · subst h3; simp [Ne.symm h]
    · simp [ih]

/-- A read after a write gives the byte written. -/
theorem read_write_same {m : Mem} (hm : m.wf = true) (a : Nat) (v : Byte) : (m.write a v).read a = v := by
  rw [wf_iff] at hm
  induction m with
  | nil => unfold Mem.write; split <;> simp [*]
  | cons c m ih =>
    obtain ⟨k, x⟩ := c
    obtain ⟨hp, hv⟩ := hm
    rw [List.pairwise_cons] at hp
    have below : ∀ b, b ≤ k → ∀ c ∈ m, b < c.1 := fun b hb c hc => by have := hp.1 c hc; simp at this; omega
    unfold Mem.write
    split_ifs with h1 h2 h3 h4
    · rw [read_cons, if_neg (by omega), read_of_below (below a (by omega)), h2]
    · simp
    · rw [read_of_below (below a (by omega)), h4]
    · simp
    · rw [read_cons, if_neg (by omega), ih ⟨hp.2, fun c hc => hv c (by simp [hc])⟩]

/-- Every entry of a written buffer is an old one or the one written, which is not the unwritten byte. -/
theorem mem_write {m : Mem} {a : Nat} {v : Byte} {c : Host.Cell} (h : c ∈ m.write a v) :
    c ∈ m ∨ (c = (a, v) ∧ v ≠ Config.unwrittenByte) := by
  induction m with
  | nil => unfold Mem.write at h; split at h <;> simp_all
  | cons d m ih =>
    obtain ⟨k, x⟩ := d
    unfold Mem.write at h
    split_ifs at h with h1 h2 h3 h4
    · exact .inl h
    · rcases List.mem_cons.1 h with h | h
      · exact .inr ⟨h, h2⟩
      · exact .inl h
    · exact .inl (List.mem_cons_of_mem _ h)
    · rcases List.mem_cons.1 h with h | h
      · exact .inr ⟨h, h4⟩
      · exact .inl (List.mem_cons_of_mem _ h)
    · rcases List.mem_cons.1 h with h | h
      · exact .inl (h ▸ List.mem_cons_self ..)
      · exact (ih h).imp (List.mem_cons_of_mem _) id

/-- A write keeps the canonical form. -/
theorem write_wf {m : Mem} (hm : m.wf = true) (a : Nat) (v : Byte) : (m.write a v).wf = true := by
  rw [wf_iff] at *
  refine ⟨?_, fun c hc => (mem_write hc).elim (hm.2 c) fun h => h.1 ▸ h.2⟩
  induction m with
  | nil => unfold Mem.write; split <;> simp
  | cons d m ih =>
    obtain ⟨k, x⟩ := d
    obtain ⟨hp, hv⟩ := hm
    have hq := List.pairwise_cons.1 hp
    unfold Mem.write
    split_ifs with h1 h2 h3 h4
    · exact hp
    · refine List.pairwise_cons.2 ⟨fun c hc => ?_, hp⟩
      rcases List.mem_cons.1 hc with rfl | hc
      · exact h1
      · exact h1.trans (hq.1 c hc)
    · exact hq.2
    · exact List.pairwise_cons.2 ⟨fun c hc => h3 ▸ hq.1 c hc, hq.2⟩
    · refine List.pairwise_cons.2 ⟨fun c hc => ?_, ih ⟨hq.2, fun c hc => hv c (by simp [hc])⟩⟩
      rcases mem_write hc with hc | ⟨rfl, -⟩
      · exact hq.1 c hc
      · simp only; omega

/-- A write inside the index space lists no index outside it. -/
theorem write_inSpace {m : Mem} {lw a : Nat} (hm : m.inSpace lw = true) (ha : a < 2 ^ lw) (v : Byte) :
    (m.write a v).inSpace lw = true := by
  rw [inSpace_iff] at *
  exact fun c hc => (mem_write hc).elim (hm c) fun h => by rw [h.1]; exact ha

/-- Canonical buffers with equal contents are equal as data. -/
theorem eq_of_read_eq {m n : Mem} (hm : m.wf = true) (hn : n.wf = true) (h : ∀ a, m.read a = n.read a) : m = n := by
  rw [wf_iff] at hm hn
  induction m generalizing n with
  | nil =>
    cases n with
    | nil => rfl
    | cons d n =>
      obtain ⟨k, x⟩ := d
      exact absurd (by simpa using (h k).symm) (hn.2 (k, x) (by simp))
  | cons c m ih =>
    obtain ⟨k, x⟩ := c
    have hk : x ≠ Config.unwrittenByte := hm.2 (k, x) (by simp)
    have hpm := List.pairwise_cons.1 hm.1
    cases n with
    | nil => exact absurd (by simpa using h k) hk
    | cons d n =>
      obtain ⟨l, y⟩ := d
      have hl : y ≠ Config.unwrittenByte := hn.2 (l, y) (by simp)
      have hpn := List.pairwise_cons.1 hn.1
      have hkl : k = l := by
        rcases Nat.lt_trichotomy k l with hlt | heq | hgt
        · refine absurd ?_ hk
          have := h k
          rwa [read_cons, if_pos rfl, read_cons, if_neg (by omega),
            read_of_below fun c hc => hlt.trans (hpn.1 c hc)] at this
        · exact heq
        · refine absurd ?_ hl
          have := (h l).symm
          rwa [read_cons, if_pos rfl, read_cons, if_neg (by omega),
            read_of_below fun c hc => hgt.trans (hpm.1 c hc)] at this
      subst hkl
      have hxy : x = y := by simpa using h k
      subst hxy
      congr 1
      refine ih ⟨hpm.2, fun c hc => hm.2 c (by simp [hc])⟩ ⟨hpn.2, fun c hc => hn.2 c (by simp [hc])⟩ fun a => ?_
      by_cases hak : k = a
      · subst hak
        rw [read_of_below fun c hc => hpm.1 c hc, read_of_below fun c hc => hpn.1 c hc]
      · simpa [hak] using h a

end Sys2Proof.Laws
end

