-- ==== Sys2Proof/Laws/Ops.lean ====
section
/-! SUPPORT. Everything each shared operation can do, once. -/

namespace Sys2Proof.Laws

open Sys2Proof.Machine

/-- `RxRead()` has no meaning exactly on an empty queue (R29, U10). -/
theorem rxRead_eq_none {s : State} : rxRead s = none ↔ s.rxq = [] := by
  unfold rxRead; split <;> simp_all

/-- `RxRead()` gives the head and removes it. -/
theorem rxRead_cons {s : State} {c : Byte} {q : List Byte} (h : s.rxq = c :: q) :
    rxRead s = some (c, { s with rxq := q }) := by
  unfold rxRead; rw [h]

/-- The selecting wire byte is the head of the queue. -/
theorem wireByte_eq (s : State) : wireByte s = s.rxq.head? := by
  unfold wireByte rxRead; cases s.rxq <;> rfl

/-- A read of PL inside the index space gives the byte held there. -/
theorem plRead_eq_some {s : State} {i : Nat} {b : Byte} :
    plRead s i = some b ↔ i < 2 ^ s.lw ∧ s.PL.read i = b := by
  unfold plRead; split <;> simp_all

/-- A write of PL inside the index space changes PL alone. -/
theorem plWrite_eq_some {s t : State} {i : Nat} {v : Byte} :
    plWrite s i v = some t ↔ i < 2 ^ s.lw ∧ t = { s with PL := s.PL.write i v } := by
  unfold plWrite; split <;> simp_all [eq_comm]

/-- A write of DB inside the index space changes DB alone. -/
theorem dbWrite_eq_some {s t : State} {i : Nat} {v : Byte} :
    dbWrite s i v = some t ↔ i < 2 ^ s.lw ∧ t = { s with DB := s.DB.write i v } := by
  unfold dbWrite; split <;> simp_all [eq_comm]

/-- Everything `append` can do when it answers a next state. -/
theorem append_cases {v : Byte} {s t : State} (h : append v s = .next t) :
    (s.d_len < s.d_cap ∧ s.d_len < 2 ^ s.lw ∧
      t = { s with DB := s.DB.write s.d_len v, d_len := s.d_len + 1 }) ∨
    (s.d_cap ≤ s.d_len ∧ t = setOVF s) := by
  by_cases hc : s.d_len < s.d_cap
  · by_cases hs : s.d_len < 2 ^ s.lw
    · simp only [append, dbWrite, hc, hs, if_true] at h
      cases h
      exact .inl ⟨hc, hs, rfl⟩
    · simp [append, dbWrite, hc, hs] at h
  · simp only [append, hc, if_false] at h
    cases h
    exact .inr ⟨by omega, rfl⟩

/-- `append` stores where there is room in the index space. -/
theorem append_store {v : Byte} {s : State} (h : s.d_len < s.d_cap) (hs : s.d_len < 2 ^ s.lw) :
    append v s = .next { s with DB := s.DB.write s.d_len v, d_len := s.d_len + 1 } := by
  unfold append dbWrite; rw [if_pos h, if_pos hs]; rfl

/-- `append` drops the byte and sets OVF on a full buffer. -/
theorem append_full {v : Byte} {s : State} (h : s.d_cap ≤ s.d_len) : append v s = .next (setOVF s) := by
  unfold append; rw [if_neg (by omega)]

end Sys2Proof.Laws
end

