-- ==== Sys2Proof/Laws/PerInstr.lean ====
section
/-! SUPPORT. Facts about every instruction as syntax, one lemma per constructor. -/

namespace Sys2Proof.Laws.WordFits

/-- The selecting word of a well-formed instruction has no bit beyond its format's width (R50, R55). -/
def Statement (i : Instr) : Prop :=
  ∀ lw, wellFormed lw i = true → (Sys2Proof.encode i).2 < 2 ^ (Sys2Proof.encode i).1.width lw

theorem encode (len : Nat) : Statement (.encode len) := fun lw h =>
  (packCommand_lt ⟨0, len⟩ lw).2 (by simpa [wellFormed] using h)

theorem decode (cap : Nat) : Statement (.decode cap) := fun lw h =>
  (packCommand_lt ⟨1, cap⟩ lw).2 (by simpa [wellFormed] using h)

theorem encX2 : Statement .encX2 := fun _ _ => Nat.one_pos
theorem encClose : Statement .encClose := fun _ _ => Nat.one_pos
theorem encEnd : Statement .encEnd := fun _ _ => Config.END.isLt
theorem encEsc : Statement .encEsc := fun _ _ => Config.ESC.isLt
theorem encLit (b : Byte) : Statement (.encLit b) := fun _ _ => b.isLt
theorem decEnd : Statement .decEnd := fun _ _ => Config.END.isLt
theorem decEsc : Statement .decEsc := fun _ _ => Config.ESC.isLt
theorem decLit (c : Byte) : Statement (.decLit c) := fun _ _ => c.isLt
theorem decXend : Statement .decXend := fun _ _ => Config.ESC_END.isLt
theorem decXesc : Statement .decXesc := fun _ _ => Config.ESC_ESC.isLt
theorem decXlit (c : Byte) : Statement (.decXlit c) := fun _ _ => c.isLt

end Sys2Proof.Laws.WordFits
end

