-- ==== Sys2Proof/Laws/Select.lean ====
section
/-! SUPPORT. What dispatch selects, in both directions, and the shared form of a meaning. -/

namespace Sys2Proof.Laws

open Sys2Proof Sys2Proof.Machine

theorem select_rst {s : State} (h : s.rst = true) : select s = .reset := by simp [select, h]

theorem selectWord_ne_reset (lw : Nat) (ctx : Context) (w : Nat) : selectWord lw ctx w ≠ .reset := by
  unfold selectWord; split <;> simp

/-- Dispatch answers reset exactly while the reset input is 1 (R94). -/
theorem select_eq_reset {s : State} : select s = .reset ↔ s.rst = true := by
  refine ⟨fun h => ?_, select_rst⟩
  by_contra hr
  unfold select selectCommand selectEncoder selectDecoder at h
  rw [if_neg hr] at h
  repeat' split at h
  all_goals first | exact selectWord_ne_reset _ _ _ h | cases h

theorem select_idle_none {s : State} (hr : s.rst = false) (ho : s.op = .IDLE) (hc : s.cmd = none) :
    select s = .hold := by simp [select, selectCommand, commandWord, hr, ho, hc]

theorem select_idle {s : State} {c : Command} (hr : s.rst = false) (ho : s.op = .IDLE) (hc : s.cmd = some c) :
    select s = if c.arg < 2 ^ s.lw then .run (if c.op = 0 then .encode c.arg else .decode c.arg)
      else .badWord (.tooWide .command) := by
  simp only [select, selectCommand, commandWord, selectWord, hr, ho, hc, Option.map_some, decode_command]
  by_cases h : c.arg < 2 ^ s.lw <;> simp [h]

theorem select_enc_hold {s : State} (hr : s.rst = false) (ho : s.op = .ENC) (ht : s.tx_ready = false) :
    select s = .hold := by simp [select, selectEncoder, txReady, hr, ho, ht]

theorem select_enc_x2 {s : State} (hr : s.rst = false) (ho : s.op = .ENC) (ht : s.tx_ready = true)
    (hp : s.e_phase = .E_ESC2) : select s = .run .encX2 := by
  simp [select, selectEncoder, selectWord, txReady, hr, ho, ht, hp]

theorem select_enc_close {s : State} (hr : s.rst = false) (ho : s.op = .ENC) (ht : s.tx_ready = true)
    (hp : s.e_phase = .E_FETCH) (hi : s.e_idx = s.e_len) : select s = .run .encClose := by
  simp [select, selectEncoder, selectWord, txReady, hr, ho, ht, hp, hi]

theorem select_enc_fetch {s : State} (hr : s.rst = false) (ho : s.op = .ENC) (ht : s.tx_ready = true)
    (hp : s.e_phase = .E_FETCH) (hi : s.e_idx < s.e_len) (hs : s.e_idx < 2 ^ s.lw) :
    select s = .run (decodePayload (s.PL.read s.e_idx)) := by
  simp [select, selectEncoder, selectWord, payloadByte, plRead, txReady, hr, ho, ht, hp, hi, hs, Nat.ne_of_lt hi]

theorem select_dec_hold {s : State} (hr : s.rst = false) (ho : s.op = .DEC) (hq : s.rxq = []) :
    select s = .hold := by simp [select, selectDecoder, wireByte_eq, hr, ho, hq]

theorem select_dec_literal {s : State} {c : Byte} {q : List Byte} (hr : s.rst = false) (ho : s.op = .DEC)
    (hq : s.rxq = c :: q) (hd : s.d_state = .LITERAL) : select s = .run (decodeLiteral c) := by
  simp [select, selectDecoder, selectWord, wireByte_eq, hr, ho, hq, hd]

theorem select_dec_pending {s : State} {c : Byte} {q : List Byte} (hr : s.rst = false) (ho : s.op = .DEC)
    (hq : s.rxq = c :: q) (hd : s.d_state = .PENDING_ESCAPE) : select s = .run (decodePending c) := by
  simp [select, selectDecoder, selectWord, wireByte_eq, hr, ho, hq, hd]

/-- Everything dispatch can select: reset is off, and one unit's condition for the step holds. -/
theorem select_run_cases {s : State} {i : Instr} (h : select s = .run i) :
    s.rst = false ∧
    ((s.op = .IDLE ∧ ∃ c, s.cmd = some c ∧ c.arg < 2 ^ s.lw ∧
        i = if c.op = 0 then .encode c.arg else .decode c.arg) ∨
     (s.op = .ENC ∧ s.tx_ready = true ∧ s.e_phase = .E_ESC2 ∧ i = .encX2) ∨
     (s.op = .ENC ∧ s.tx_ready = true ∧ s.e_phase = .E_FETCH ∧ s.e_idx = s.e_len ∧ i = .encClose) ∨
     (s.op = .ENC ∧ s.tx_ready = true ∧ s.e_phase = .E_FETCH ∧ s.e_idx < s.e_len ∧ s.e_idx < 2 ^ s.lw ∧
        i = decodePayload (s.PL.read s.e_idx)) ∨
     (s.op = .DEC ∧ ∃ c q, s.rxq = c :: q ∧
        ((s.d_state = .LITERAL ∧ i = decodeLiteral c) ∨ (s.d_state = .PENDING_ESCAPE ∧ i = decodePending c)))) := by
  have hr : s.rst = false := by
    by_contra hr
    rw [select_rst (by simpa using hr)] at h
    cases h
  refine ⟨hr, ?_⟩
  cases ho : s.op with
  | IDLE =>
    refine .inl ⟨rfl, ?_⟩
    cases hc : s.cmd with
    | none => rw [select_idle_none hr ho hc] at h; cases h
    | some c =>
      rw [select_idle hr ho hc] at h
      split at h
      · exact ⟨c, rfl, by assumption, (Selection.run.inj h).symm⟩
      · cases h
  | ENC =>
    right
    cases ht : s.tx_ready with
    | false => rw [select_enc_hold hr ho ht] at h; cases h
    | true =>
      cases hp : s.e_phase with
      | E_ESC2 =>
        rw [select_enc_x2 hr ho ht hp] at h
        cases h
        exact .inl ⟨rfl, rfl, rfl, rfl⟩
      | E_FETCH =>
        right
        by_cases he : s.e_idx = s.e_len
        · rw [select_enc_close hr ho ht hp he] at h
          cases h
          exact .inl ⟨rfl, rfl, rfl, he, rfl⟩
        · by_cases hl : s.e_idx < s.e_len
          · by_cases hs : s.e_idx < 2 ^ s.lw
            · rw [select_enc_fetch hr ho ht hp hl hs] at h
              exact .inr (.inl ⟨rfl, rfl, rfl, hl, hs, (Selection.run.inj h).symm⟩)
            · simp [select, selectEncoder, payloadByte, plRead, txReady, hr, ho, ht, hp, he, hl, hs] at h
          · simp [select, selectEncoder, txReady, hr, ho, ht, hp, he, hl] at h
  | DEC =>
    right; right; right; right
    refine ⟨rfl, ?_⟩
    cases hq : s.rxq with
    | nil => rw [select_dec_hold hr ho hq] at h; cases h
    | cons c q =>
      refine ⟨c, q, rfl, ?_⟩
      cases hd : s.d_state with
      | LITERAL =>
        rw [select_dec_literal hr ho hq hd] at h
        exact .inl ⟨rfl, (Selection.run.inj h).symm⟩
      | PENDING_ESCAPE =>
        rw [select_dec_pending hr ho hq hd] at h
        exact .inr ⟨rfl, (Selection.run.inj h).symm⟩
      | DONE => simp [select, selectDecoder, wireByte_eq, hr, ho, hq, hd] at h

/-- Everything a hold can be: the unit that `op` names waits for its partner. -/
theorem select_hold_cases {s : State} (h : select s = .hold) :
    s.rst = false ∧
    ((s.op = .IDLE ∧ s.cmd = none) ∨ (s.op = .ENC ∧ s.tx_ready = false) ∨ (s.op = .DEC ∧ s.rxq = [])) := by
  have hr : s.rst = false := by
    by_contra hr
    rw [select_rst (by simpa using hr)] at h
    cases h
  refine ⟨hr, ?_⟩
  cases ho : s.op with
  | IDLE =>
    cases hc : s.cmd with
    | none => exact .inl ⟨rfl, rfl⟩
    | some c => rw [select_idle hr ho hc] at h; split at h <;> cases h
  | ENC =>
    cases ht : s.tx_ready with
    | false => exact .inr (.inl ⟨rfl, rfl⟩)
    | true =>
      exfalso
      cases hp : s.e_phase with
      | E_ESC2 => rw [select_enc_x2 hr ho ht hp] at h; cases h
      | E_FETCH =>
        rcases Nat.lt_trichotomy s.e_idx s.e_len with hi | hi | hi
        · by_cases hx : s.e_idx < 2 ^ s.lw
          · rw [select_enc_fetch hr ho ht hp hi hx] at h; cases h
          · simp [select, selectEncoder, payloadByte, plRead, txReady, hr, ho, ht, hp, hi, hx, Nat.ne_of_lt hi] at h
        · rw [select_enc_close hr ho ht hp hi] at h; cases h
        · simp [select, selectEncoder, txReady, hr, ho, ht, hp, Nat.ne_of_gt hi, Nat.lt_asymm hi] at h
  | DEC =>
    cases hq : s.rxq with
    | nil => exact .inr (.inr ⟨rfl, rfl⟩)
    | cons c q =>
      exfalso
      cases hd : s.d_state with
      | LITERAL => rw [select_dec_literal hr ho hq hd] at h; cases h
      | PENDING_ESCAPE => rw [select_dec_pending hr ho hq hd] at h; cases h
      | DONE => simp [select, selectDecoder, wireByte_eq, hr, ho, hq, hd] at h

/-- Dispatch sees nothing but the reset input, the parameter, `op`, and what the unit that `op` names looks at; the payload
byte at the cursor only where a ready encoder out of reset takes one. -/
theorem select_congr {s t : State} (hr : s.rst = t.rst) (hl : s.lw = t.lw) (ho : s.op = t.op)
    (hc : s.op = .IDLE → s.cmd = t.cmd) (ht : s.op = .ENC → s.tx_ready = t.tx_ready ∧ s.e_phase = t.e_phase)
    (he : s.op = .ENC → s.e_phase = .E_FETCH → s.e_idx = t.e_idx ∧ s.e_len = t.e_len ∧
      (s.rst = false → s.tx_ready = true → s.e_idx < s.e_len → s.PL.read s.e_idx = t.PL.read s.e_idx))
    (hd : s.op = .DEC → s.rxq.head? = t.rxq.head? ∧ s.d_state = t.d_state) : select s = select t := by
  unfold select
  rw [← hr]
  by_cases hrst : s.rst = true
  · rw [if_pos hrst, if_pos hrst]
  rw [if_neg hrst, if_neg hrst]
  cases hop : s.op with
  | IDLE => simp only [← ho, hop, selectCommand, commandWord, hl, hc hop]
  | ENC =>
    obtain ⟨h1, h2⟩ := ht hop
    have h1 : txReady s = txReady t := h1
    simp only [← ho, hop, selectEncoder, ← h1, ← h2, ← hl]
    by_cases htx : txReady s = true
    · rw [if_pos htx, if_pos htx]
      cases hp : s.e_phase with
      | E_ESC2 => rfl
      | E_FETCH =>
        obtain ⟨h3, h4, h5⟩ := he hop hp
        rw [← h3, ← h4]
        by_cases hlt : s.e_idx < s.e_len
        · simp only [payloadByte, plRead, ← h3, ← hl, h5 (by simpa using hrst) htx hlt]
        · simp only [hlt, if_false]
    · rw [if_neg htx, if_neg htx]
  | DEC =>
    obtain ⟨h1, h2⟩ := hd hop
    simp only [← ho, hop, selectDecoder, wireByte_eq, h1, h2, hl]

theorem whenSelected_run {i : Instr} {s : State} {r : Result} (h : select s = .run i) :
    whenSelected i s r = r := if_pos h

theorem whenSelected_other {i : Instr} {s : State} {r : Result} (h : select s ≠ .run i) :
    whenSelected i s r = .next s := if_neg h

theorem consuming_cons {s : State} {c : Byte} {q : List Byte} {k : State → Result} (h : s.rxq = c :: q) :
    consuming s k = k { s with rxq := q } := by unfold consuming; rw [rxRead_cons h]

end Sys2Proof.Laws
end

