-- ==== Sys2Proof/Laws/State.lean ====
section
/-! SUPPORT. What each named update does to each field of State, so that no proof unfolds an update. One lemma per update
states all its fields: simp takes each conjunct as a rewriting rule of its own. -/

namespace Sys2Proof.Laws

open Sys2Proof.Machine

@[simp] theorem takeCommand_fields (s : State) :
    (takeCommand s).lw = s.lw ∧ (takeCommand s).op = s.op ∧ (takeCommand s).e_len = s.e_len ∧
    (takeCommand s).e_idx = s.e_idx ∧ (takeCommand s).e_phase = s.e_phase ∧ (takeCommand s).e_pend = s.e_pend ∧
    (takeCommand s).d_state = s.d_state ∧ (takeCommand s).d_len = s.d_len ∧ (takeCommand s).d_cap = s.d_cap ∧
    (takeCommand s).OVF = s.OVF ∧ (takeCommand s).MAL = s.MAL ∧ (takeCommand s).PL = s.PL ∧
    (takeCommand s).DB = s.DB ∧ (takeCommand s).rxq = s.rxq ∧ (takeCommand s).txq = s.txq ∧
    (takeCommand s).cmd = none ∧ (takeCommand s).tx_ready = s.tx_ready ∧ (takeCommand s).rst = s.rst ∧
    (takeCommand s).script = s.script :=
    ⟨rfl, rfl, rfl, rfl, rfl, rfl, rfl, rfl, rfl, rfl, rfl, rfl, rfl, rfl, rfl, rfl, rfl, rfl, rfl⟩

@[simp] theorem startEncode_fields (len : Nat) (s : State) :
    (startEncode len s).lw = s.lw ∧ (startEncode len s).op = .ENC ∧ (startEncode len s).e_len = len ∧
    (startEncode len s).e_idx = 0 ∧ (startEncode len s).e_phase = .E_FETCH ∧ (startEncode len s).e_pend = s.e_pend ∧
    (startEncode len s).d_state = s.d_state ∧ (startEncode len s).d_len = s.d_len ∧
    (startEncode len s).d_cap = s.d_cap ∧ (startEncode len s).OVF = s.OVF ∧ (startEncode len s).MAL = s.MAL ∧
    (startEncode len s).PL = s.PL ∧ (startEncode len s).DB = s.DB ∧ (startEncode len s).rxq = s.rxq ∧
    (startEncode len s).txq = s.txq ∧ (startEncode len s).cmd = s.cmd ∧ (startEncode len s).tx_ready = s.tx_ready ∧
    (startEncode len s).rst = s.rst ∧ (startEncode len s).script = s.script :=
    ⟨rfl, rfl, rfl, rfl, rfl, rfl, rfl, rfl, rfl, rfl, rfl, rfl, rfl, rfl, rfl, rfl, rfl, rfl, rfl⟩

@[simp] theorem startDecode_fields (cap : Nat) (s : State) :
    (startDecode cap s).lw = s.lw ∧ (startDecode cap s).op = .DEC ∧ (startDecode cap s).e_len = s.e_len ∧
    (startDecode cap s).e_idx = s.e_idx ∧ (startDecode cap s).e_phase = s.e_phase ∧
    (startDecode cap s).e_pend = s.e_pend ∧ (startDecode cap s).d_state = .LITERAL ∧ (startDecode cap s).d_len = 0 ∧
    (startDecode cap s).d_cap = cap ∧ (startDecode cap s).OVF = s.OVF ∧ (startDecode cap s).MAL = s.MAL ∧
    (startDecode cap s).PL = s.PL ∧ (startDecode cap s).DB = s.DB ∧ (startDecode cap s).rxq = s.rxq ∧
    (startDecode cap s).txq = s.txq ∧ (startDecode cap s).cmd = s.cmd ∧ (startDecode cap s).tx_ready = s.tx_ready ∧
    (startDecode cap s).rst = s.rst ∧ (startDecode cap s).script = s.script :=
    ⟨rfl, rfl, rfl, rfl, rfl, rfl, rfl, rfl, rfl, rfl, rfl, rfl, rfl, rfl, rfl, rfl, rfl, rfl, rfl⟩

@[simp] theorem txWrite_fields (b : Byte) (s : State) :
    (txWrite b s).lw = s.lw ∧ (txWrite b s).op = s.op ∧ (txWrite b s).e_len = s.e_len ∧
    (txWrite b s).e_idx = s.e_idx ∧ (txWrite b s).e_phase = s.e_phase ∧ (txWrite b s).e_pend = s.e_pend ∧
    (txWrite b s).d_state = s.d_state ∧ (txWrite b s).d_len = s.d_len ∧ (txWrite b s).d_cap = s.d_cap ∧
    (txWrite b s).OVF = s.OVF ∧ (txWrite b s).MAL = s.MAL ∧ (txWrite b s).PL = s.PL ∧ (txWrite b s).DB = s.DB ∧
    (txWrite b s).rxq = s.rxq ∧ (txWrite b s).txq = s.txq ++ [b] ∧ (txWrite b s).cmd = s.cmd ∧
    (txWrite b s).tx_ready = s.tx_ready ∧ (txWrite b s).rst = s.rst ∧ (txWrite b s).script = s.script :=
    ⟨rfl, rfl, rfl, rfl, rfl, rfl, rfl, rfl, rfl, rfl, rfl, rfl, rfl, rfl, rfl, rfl, rfl, rfl, rfl⟩

@[simp] theorem advanceCursor_fields (s : State) :
    (advanceCursor s).lw = s.lw ∧ (advanceCursor s).op = s.op ∧ (advanceCursor s).e_len = s.e_len ∧
    (advanceCursor s).e_idx = s.e_idx + 1 ∧ (advanceCursor s).e_phase = s.e_phase ∧
    (advanceCursor s).e_pend = s.e_pend ∧ (advanceCursor s).d_state = s.d_state ∧ (advanceCursor s).d_len = s.d_len ∧
    (advanceCursor s).d_cap = s.d_cap ∧ (advanceCursor s).OVF = s.OVF ∧ (advanceCursor s).MAL = s.MAL ∧
    (advanceCursor s).PL = s.PL ∧ (advanceCursor s).DB = s.DB ∧ (advanceCursor s).rxq = s.rxq ∧
    (advanceCursor s).txq = s.txq ∧ (advanceCursor s).cmd = s.cmd ∧ (advanceCursor s).tx_ready = s.tx_ready ∧
    (advanceCursor s).rst = s.rst ∧ (advanceCursor s).script = s.script :=
    ⟨rfl, rfl, rfl, rfl, rfl, rfl, rfl, rfl, rfl, rfl, rfl, rfl, rfl, rfl, rfl, rfl, rfl, rfl, rfl⟩

@[simp] theorem oweEscape_fields (b : Byte) (s : State) :
    (oweEscape b s).lw = s.lw ∧ (oweEscape b s).op = s.op ∧ (oweEscape b s).e_len = s.e_len ∧
    (oweEscape b s).e_idx = s.e_idx ∧ (oweEscape b s).e_phase = .E_ESC2 ∧ (oweEscape b s).e_pend = b ∧
    (oweEscape b s).d_state = s.d_state ∧ (oweEscape b s).d_len = s.d_len ∧ (oweEscape b s).d_cap = s.d_cap ∧
    (oweEscape b s).OVF = s.OVF ∧ (oweEscape b s).MAL = s.MAL ∧ (oweEscape b s).PL = s.PL ∧
    (oweEscape b s).DB = s.DB ∧ (oweEscape b s).rxq = s.rxq ∧ (oweEscape b s).txq = s.txq ∧
    (oweEscape b s).cmd = s.cmd ∧ (oweEscape b s).tx_ready = s.tx_ready ∧ (oweEscape b s).rst = s.rst ∧
    (oweEscape b s).script = s.script :=
    ⟨rfl, rfl, rfl, rfl, rfl, rfl, rfl, rfl, rfl, rfl, rfl, rfl, rfl, rfl, rfl, rfl, rfl, rfl, rfl⟩

@[simp] theorem escapePaid_fields (s : State) :
    (escapePaid s).lw = s.lw ∧ (escapePaid s).op = s.op ∧ (escapePaid s).e_len = s.e_len ∧
    (escapePaid s).e_idx = s.e_idx ∧ (escapePaid s).e_phase = .E_FETCH ∧ (escapePaid s).e_pend = s.e_pend ∧
    (escapePaid s).d_state = s.d_state ∧ (escapePaid s).d_len = s.d_len ∧ (escapePaid s).d_cap = s.d_cap ∧
    (escapePaid s).OVF = s.OVF ∧ (escapePaid s).MAL = s.MAL ∧ (escapePaid s).PL = s.PL ∧ (escapePaid s).DB = s.DB ∧
    (escapePaid s).rxq = s.rxq ∧ (escapePaid s).txq = s.txq ∧ (escapePaid s).cmd = s.cmd ∧
    (escapePaid s).tx_ready = s.tx_ready ∧ (escapePaid s).rst = s.rst ∧ (escapePaid s).script = s.script :=
    ⟨rfl, rfl, rfl, rfl, rfl, rfl, rfl, rfl, rfl, rfl, rfl, rfl, rfl, rfl, rfl, rfl, rfl, rfl, rfl⟩

@[simp] theorem endCall_fields (s : State) :
    (endCall s).lw = s.lw ∧ (endCall s).op = .IDLE ∧ (endCall s).e_len = s.e_len ∧ (endCall s).e_idx = s.e_idx ∧
    (endCall s).e_phase = s.e_phase ∧ (endCall s).e_pend = s.e_pend ∧ (endCall s).d_state = s.d_state ∧
    (endCall s).d_len = s.d_len ∧ (endCall s).d_cap = s.d_cap ∧ (endCall s).OVF = s.OVF ∧ (endCall s).MAL = s.MAL ∧
    (endCall s).PL = s.PL ∧ (endCall s).DB = s.DB ∧ (endCall s).rxq = s.rxq ∧ (endCall s).txq = s.txq ∧
    (endCall s).cmd = s.cmd ∧ (endCall s).tx_ready = s.tx_ready ∧ (endCall s).rst = s.rst ∧
    (endCall s).script = s.script :=
    ⟨rfl, rfl, rfl, rfl, rfl, rfl, rfl, rfl, rfl, rfl, rfl, rfl, rfl, rfl, rfl, rfl, rfl, rfl, rfl⟩

@[simp] theorem enterState_fields (d : DState) (s : State) :
    (enterState d s).lw = s.lw ∧ (enterState d s).op = s.op ∧ (enterState d s).e_len = s.e_len ∧
    (enterState d s).e_idx = s.e_idx ∧ (enterState d s).e_phase = s.e_phase ∧ (enterState d s).e_pend = s.e_pend ∧
    (enterState d s).d_state = d ∧ (enterState d s).d_len = s.d_len ∧ (enterState d s).d_cap = s.d_cap ∧
    (enterState d s).OVF = s.OVF ∧ (enterState d s).MAL = s.MAL ∧ (enterState d s).PL = s.PL ∧
    (enterState d s).DB = s.DB ∧ (enterState d s).rxq = s.rxq ∧ (enterState d s).txq = s.txq ∧
    (enterState d s).cmd = s.cmd ∧ (enterState d s).tx_ready = s.tx_ready ∧ (enterState d s).rst = s.rst ∧
    (enterState d s).script = s.script :=
    ⟨rfl, rfl, rfl, rfl, rfl, rfl, rfl, rfl, rfl, rfl, rfl, rfl, rfl, rfl, rfl, rfl, rfl, rfl, rfl⟩

@[simp] theorem countByte_fields (s : State) :
    (countByte s).lw = s.lw ∧ (countByte s).op = s.op ∧ (countByte s).e_len = s.e_len ∧
    (countByte s).e_idx = s.e_idx ∧ (countByte s).e_phase = s.e_phase ∧ (countByte s).e_pend = s.e_pend ∧
    (countByte s).d_state = s.d_state ∧ (countByte s).d_len = s.d_len + 1 ∧ (countByte s).d_cap = s.d_cap ∧
    (countByte s).OVF = s.OVF ∧ (countByte s).MAL = s.MAL ∧ (countByte s).PL = s.PL ∧ (countByte s).DB = s.DB ∧
    (countByte s).rxq = s.rxq ∧ (countByte s).txq = s.txq ∧ (countByte s).cmd = s.cmd ∧
    (countByte s).tx_ready = s.tx_ready ∧ (countByte s).rst = s.rst ∧ (countByte s).script = s.script :=
    ⟨rfl, rfl, rfl, rfl, rfl, rfl, rfl, rfl, rfl, rfl, rfl, rfl, rfl, rfl, rfl, rfl, rfl, rfl, rfl⟩

@[simp] theorem setOVF_fields (s : State) :
    (setOVF s).lw = s.lw ∧ (setOVF s).op = s.op ∧ (setOVF s).e_len = s.e_len ∧ (setOVF s).e_idx = s.e_idx ∧
    (setOVF s).e_phase = s.e_phase ∧ (setOVF s).e_pend = s.e_pend ∧ (setOVF s).d_state = s.d_state ∧
    (setOVF s).d_len = s.d_len ∧ (setOVF s).d_cap = s.d_cap ∧ (setOVF s).OVF = true ∧ (setOVF s).MAL = s.MAL ∧
    (setOVF s).PL = s.PL ∧ (setOVF s).DB = s.DB ∧ (setOVF s).rxq = s.rxq ∧ (setOVF s).txq = s.txq ∧
    (setOVF s).cmd = s.cmd ∧ (setOVF s).tx_ready = s.tx_ready ∧ (setOVF s).rst = s.rst ∧
    (setOVF s).script = s.script :=
    ⟨rfl, rfl, rfl, rfl, rfl, rfl, rfl, rfl, rfl, rfl, rfl, rfl, rfl, rfl, rfl, rfl, rfl, rfl, rfl⟩

@[simp] theorem setMAL_fields (s : State) :
    (setMAL s).lw = s.lw ∧ (setMAL s).op = s.op ∧ (setMAL s).e_len = s.e_len ∧ (setMAL s).e_idx = s.e_idx ∧
    (setMAL s).e_phase = s.e_phase ∧ (setMAL s).e_pend = s.e_pend ∧ (setMAL s).d_state = s.d_state ∧
    (setMAL s).d_len = s.d_len ∧ (setMAL s).d_cap = s.d_cap ∧ (setMAL s).OVF = s.OVF ∧ (setMAL s).MAL = true ∧
    (setMAL s).PL = s.PL ∧ (setMAL s).DB = s.DB ∧ (setMAL s).rxq = s.rxq ∧ (setMAL s).txq = s.txq ∧
    (setMAL s).cmd = s.cmd ∧ (setMAL s).tx_ready = s.tx_ready ∧ (setMAL s).rst = s.rst ∧
    (setMAL s).script = s.script :=
    ⟨rfl, rfl, rfl, rfl, rfl, rfl, rfl, rfl, rfl, rfl, rfl, rfl, rfl, rfl, rfl, rfl, rfl, rfl, rfl⟩

@[simp] theorem clearFlags_fields (s : State) :
    (clearFlags s).lw = s.lw ∧ (clearFlags s).op = s.op ∧ (clearFlags s).e_len = s.e_len ∧
    (clearFlags s).e_idx = s.e_idx ∧ (clearFlags s).e_phase = s.e_phase ∧ (clearFlags s).e_pend = s.e_pend ∧
    (clearFlags s).d_state = s.d_state ∧ (clearFlags s).d_len = s.d_len ∧ (clearFlags s).d_cap = s.d_cap ∧
    (clearFlags s).OVF = false ∧ (clearFlags s).MAL = false ∧ (clearFlags s).PL = s.PL ∧ (clearFlags s).DB = s.DB ∧
    (clearFlags s).rxq = s.rxq ∧ (clearFlags s).txq = s.txq ∧ (clearFlags s).cmd = s.cmd ∧
    (clearFlags s).tx_ready = s.tx_ready ∧ (clearFlags s).rst = s.rst ∧ (clearFlags s).script = s.script :=
    ⟨rfl, rfl, rfl, rfl, rfl, rfl, rfl, rfl, rfl, rfl, rfl, rfl, rfl, rfl, rfl, rfl, rfl, rfl, rfl⟩

@[simp] theorem resetRegisters_fields (s : State) :
    (resetRegisters s).lw = s.lw ∧ (resetRegisters s).op = .IDLE ∧ (resetRegisters s).e_len = 0 ∧
    (resetRegisters s).e_idx = 0 ∧ (resetRegisters s).e_phase = .E_FETCH ∧ (resetRegisters s).e_pend = 0x00 ∧
    (resetRegisters s).d_state = .LITERAL ∧ (resetRegisters s).d_len = 0 ∧ (resetRegisters s).d_cap = 0 ∧
    (resetRegisters s).OVF = false ∧ (resetRegisters s).MAL = false ∧ (resetRegisters s).PL = s.PL ∧
    (resetRegisters s).DB = s.DB ∧ (resetRegisters s).rxq = s.rxq ∧ (resetRegisters s).txq = s.txq ∧
    (resetRegisters s).cmd = s.cmd ∧ (resetRegisters s).tx_ready = s.tx_ready ∧ (resetRegisters s).rst = s.rst ∧
    (resetRegisters s).script = s.script :=
    ⟨rfl, rfl, rfl, rfl, rfl, rfl, rfl, rfl, rfl, rfl, rfl, rfl, rfl, rfl, rfl, rfl, rfl, rfl, rfl⟩

@[simp] theorem readyToRun_fields (s : State) :
    (readyToRun s).lw = s.lw ∧ (readyToRun s).op = s.op ∧ (readyToRun s).e_len = s.e_len ∧
    (readyToRun s).e_idx = s.e_idx ∧ (readyToRun s).e_phase = s.e_phase ∧ (readyToRun s).e_pend = s.e_pend ∧
    (readyToRun s).d_state = s.d_state ∧ (readyToRun s).d_len = s.d_len ∧ (readyToRun s).d_cap = s.d_cap ∧
    (readyToRun s).OVF = s.OVF ∧ (readyToRun s).MAL = s.MAL ∧ (readyToRun s).PL = s.PL ∧ (readyToRun s).DB = s.DB ∧
    (readyToRun s).rxq = s.rxq ∧ (readyToRun s).txq = s.txq ∧ (readyToRun s).cmd = s.cmd ∧
    (readyToRun s).tx_ready = s.tx_ready ∧ (readyToRun s).rst = false ∧ (readyToRun s).script = [] :=
    ⟨rfl, rfl, rfl, rfl, rfl, rfl, rfl, rfl, rfl, rfl, rfl, rfl, rfl, rfl, rfl, rfl, rfl, rfl, rfl⟩

end Sys2Proof.Laws
end

