-- ==== Sys2Proof/Laws/Step.lean ====
section
/-! SUPPORT. Once, everything a clock edge can do (`EdgeStep`) and everything a turn can do, for proofs to take cases on
instead of unfolding the step function. -/

namespace Sys2Proof.Laws

open Sys2Proof Sys2Proof.Machine

/-- A clock edge, by the rule that describes it. -/
inductive EdgeStep (s : State) : State → Prop
  | reset (hr : s.rst = true) : EdgeStep s (resetRegisters s)
  | hold (hr : s.rst = false) (hs : select s = .hold) : EdgeStep s s
  | encodeZero (hr : s.rst = false) (hs : select s = .run (.encode 0)) (ho : s.op = .IDLE)
      (hc : s.cmd = some ⟨0, 0⟩) : EdgeStep s (takeCommand s)
  | encode (len : Nat) (hr : s.rst = false) (hs : select s = .run (.encode len)) (ho : s.op = .IDLE)
      (hc : s.cmd = some ⟨0, len⟩) (hl : len < 2 ^ s.lw) (h0 : len ≠ 0) :
      EdgeStep s (startEncode len (takeCommand s))
  | decode (cap : Nat) (hr : s.rst = false) (hs : select s = .run (.decode cap)) (ho : s.op = .IDLE)
      (hc : s.cmd = some ⟨1, cap⟩) (hl : cap < 2 ^ s.lw) :
      EdgeStep s (clearFlags (startDecode cap (takeCommand s)))
  | encX2 (hr : s.rst = false) (hs : select s = .run .encX2) (ho : s.op = .ENC) (ht : s.tx_ready = true)
      (hp : s.e_phase = .E_ESC2) : EdgeStep s (escapePaid (txWrite s.e_pend s))
  | encClose (hr : s.rst = false) (hs : select s = .run .encClose) (ho : s.op = .ENC) (ht : s.tx_ready = true)
      (hp : s.e_phase = .E_FETCH) (hi : s.e_idx = s.e_len) : EdgeStep s (endCall (txWrite Config.END s))
  | encEnd (hr : s.rst = false) (hs : select s = .run .encEnd) (ho : s.op = .ENC) (ht : s.tx_ready = true)
      (hp : s.e_phase = .E_FETCH) (hi : s.e_idx < s.e_len) (hx : s.e_idx < 2 ^ s.lw)
      (hb : s.PL.read s.e_idx = Config.END) :
      EdgeStep s (advanceCursor (oweEscape Config.ESC_END (txWrite Config.ESC s)))
  | encEsc (hr : s.rst = false) (hs : select s = .run .encEsc) (ho : s.op = .ENC) (ht : s.tx_ready = true)
      (hp : s.e_phase = .E_FETCH) (hi : s.e_idx < s.e_len) (hx : s.e_idx < 2 ^ s.lw)
      (hb : s.PL.read s.e_idx = Config.ESC) :
      EdgeStep s (advanceCursor (oweEscape Config.ESC_ESC (txWrite Config.ESC s)))
  | encLit (b : Byte) (hr : s.rst = false) (hs : select s = .run (.encLit b)) (ho : s.op = .ENC)
      (ht : s.tx_ready = true) (hp : s.e_phase = .E_FETCH) (hi : s.e_idx < s.e_len) (hx : s.e_idx < 2 ^ s.lw)
      (hb : s.PL.read s.e_idx = b) (h1 : b ≠ Config.END) (h2 : b ≠ Config.ESC) :
      EdgeStep s (advanceCursor (txWrite b s))
  | decEnd (q : List Byte) (hr : s.rst = false) (hs : select s = .run .decEnd) (ho : s.op = .DEC)
      (hd : s.d_state = .LITERAL) (hq : s.rxq = Config.END :: q) :
      EdgeStep s (endCall (enterState .DONE { s with rxq := q }))
  | decEsc (q : List Byte) (hr : s.rst = false) (hs : select s = .run .decEsc) (ho : s.op = .DEC)
      (hd : s.d_state = .LITERAL) (hq : s.rxq = Config.ESC :: q) :
      EdgeStep s (enterState .PENDING_ESCAPE { s with rxq := q })
  | decLit (c : Byte) (q : List Byte) (t : State) (hr : s.rst = false) (hs : select s = .run (.decLit c))
      (ho : s.op = .DEC) (hd : s.d_state = .LITERAL) (hq : s.rxq = c :: q) (h1 : c ≠ Config.END)
      (h2 : c ≠ Config.ESC) (ha : append c { s with rxq := q } = .next t) : EdgeStep s t
  | decXend (q : List Byte) (t : State) (hr : s.rst = false) (hs : select s = .run .decXend) (ho : s.op = .DEC)
      (hd : s.d_state = .PENDING_ESCAPE) (hq : s.rxq = Config.ESC_END :: q)
      (ha : append Config.END (enterState .LITERAL { s with rxq := q }) = .next t) : EdgeStep s t
  | decXesc (q : List Byte) (t : State) (hr : s.rst = false) (hs : select s = .run .decXesc) (ho : s.op = .DEC)
      (hd : s.d_state = .PENDING_ESCAPE) (hq : s.rxq = Config.ESC_ESC :: q)
      (ha : append Config.ESC (enterState .LITERAL { s with rxq := q }) = .next t) : EdgeStep s t
  | decXlit (c : Byte) (q : List Byte) (t : State) (hr : s.rst = false) (hs : select s = .run (.decXlit c))
      (ho : s.op = .DEC) (hd : s.d_state = .PENDING_ESCAPE) (hq : s.rxq = c :: q) (h1 : c ≠ Config.ESC_END)
      (h2 : c ≠ Config.ESC_ESC) (ha : append c (setMAL (enterState .LITERAL { s with rxq := q })) = .next t) :
      EdgeStep s t

/-- A clock edge that selects a step runs its meaning. -/
theorem clockEdge_run {s : State} {i : Instr} (h : select s = .run i) : clockEdge s = exec i s := by
  simp [clockEdge, h]

theorem clockEdge_hold {s : State} (h : select s = .hold) : clockEdge s = .next s := by simp [clockEdge, h]

theorem clockEdge_rst {s : State} (h : s.rst = true) : clockEdge s = .next (resetRegisters s) := by
  simp [clockEdge, select_rst h]

/-- The effect of a step once it is selected: the meanings without their common guard. -/
def effect (i : Instr) (s : State) : Result :=
  match i with
  | .encode len => .next (if len = 0 then takeCommand s else startEncode len (takeCommand s))
  | .decode cap => .next (clearFlags (startDecode cap (takeCommand s)))
  | .encX2 => .next (escapePaid (txWrite s.e_pend s))
  | .encClose => .next (endCall (txWrite Config.END s))
  | .encEnd => .next (advanceCursor (oweEscape Config.ESC_END (txWrite Config.ESC s)))
  | .encEsc => .next (advanceCursor (oweEscape Config.ESC_ESC (txWrite Config.ESC s)))
  | .encLit b => .next (advanceCursor (txWrite b s))
  | .decEnd => .next (endCall (enterState .DONE { s with rxq := s.rxq.tail }))
  | .decEsc => .next (enterState .PENDING_ESCAPE { s with rxq := s.rxq.tail })
  | .decLit c => append c { s with rxq := s.rxq.tail }
  | .decXend => append Config.END (enterState .LITERAL { s with rxq := s.rxq.tail })
  | .decXesc => append Config.ESC (enterState .LITERAL { s with rxq := s.rxq.tail })
  | .decXlit c => append c (setMAL (enterState .LITERAL { s with rxq := s.rxq.tail }))

/-- A selected instruction has its effect. -/
theorem exec_selected {s : State} {i : Instr} (h : select s = .run i) : exec i s = effect i s := by
  obtain ⟨-, hc⟩ := select_run_cases h
  rcases hc with ⟨-, c, -, -, rfl⟩ | ⟨-, -, -, rfl⟩ | ⟨-, -, -, -, rfl⟩ | ⟨-, -, -, -, -, rfl⟩ |
    ⟨-, c, q, hq, ⟨-, rfl⟩ | ⟨-, rfl⟩⟩
  · split at h <;> simp only [exec, execEncode, execDecode, effect, whenSelected_run h, *, if_true, if_false]
  · simp only [exec, execEncX2, effect, whenSelected_run h]
  · simp only [exec, execEncClose, effect, whenSelected_run h]
  · unfold decodePayload at *
    split_ifs at * <;> simp only [exec, execEncEnd, execEncEsc, execEncLit, effect, whenSelected_run h]
  · unfold decodeLiteral at *
    split_ifs at * <;>
      simp only [exec, execDecEnd, execDecEsc, execDecLit, effect, whenSelected_run h, consuming_cons hq, hq,
        List.tail_cons]
  · unfold decodePending at *
    split_ifs at * <;>
      simp only [exec, execDecXend, execDecXesc, execDecXlit, effect, whenSelected_run h, consuming_cons hq, hq,
        List.tail_cons]

/-- A clock edge that selects a step has its effect. -/
theorem clockEdge_selected {s : State} {i : Instr} (h : select s = .run i) : clockEdge s = effect i s := by
  rw [clockEdge_run h, exec_selected h]

/-- Every next state of a clock edge is one of `EdgeStep`'s. -/
theorem edgeStep_of_clockEdge {s t : State} (h : clockEdge s = .next t) : EdgeStep s t := by
  cases hs : select s with
  | reset =>
    rw [clockEdge, hs] at h
    cases h
    exact .reset (select_eq_reset.1 hs)
  | hold =>
    rw [clockEdge_hold hs] at h
    cases h
    refine .hold ?_ hs
    by_contra hr
    rw [select_rst (by simpa using hr)] at hs
    cases hs
  | noRule f => simp [clockEdge, hs] at h
  | badWord e => simp [clockEdge, hs] at h
  | run i =>
    rw [clockEdge_run hs] at h
    obtain ⟨hr, hc⟩ := select_run_cases hs
    rcases hc with ⟨ho, c, hc, hl, rfl⟩ | ⟨ho, ht, hp, rfl⟩ | ⟨ho, ht, hp, hi, rfl⟩ | ⟨ho, ht, hp, hi, hx, rfl⟩ |
      ⟨ho, c, q, hq, ⟨hd, rfl⟩ | ⟨hd, rfl⟩⟩
    · obtain ⟨b, n⟩ := c
      rcases (show ∀ b : BitVec 1, b = 0 ∨ b = 1 by decide) b with rfl | rfl
      · simp only [if_true] at h hs
        simp only [exec, execEncode, whenSelected_run hs] at h
        by_cases h0 : n = 0
        · subst h0; simp at h; subst h; exact .encodeZero hr hs ho hc
        · simp [h0] at h; subst h; exact .encode n hr hs ho hc hl h0
      · simp only [show ¬((1 : BitVec 1) = 0) by decide, if_false] at h hs
        simp only [exec, execDecode, whenSelected_run hs] at h
        cases h; exact .decode n hr hs ho hc hl
    · simp only [exec, execEncX2, whenSelected_run hs] at h
      cases h; exact .encX2 hr hs ho ht hp
    · simp only [exec, execEncClose, whenSelected_run hs] at h
      cases h; exact .encClose hr hs ho ht hp hi
    · by_cases h1 : s.PL.read s.e_idx = Config.END
      · simp only [decodePayload, h1, if_true] at h hs
        simp only [exec, execEncEnd, whenSelected_run hs] at h
        cases h; exact .encEnd hr hs ho ht hp hi hx h1
      · by_cases h2 : s.PL.read s.e_idx = Config.ESC
        · simp only [decodePayload, h2, esc_ne_end, if_true, if_false] at h hs
          simp only [exec, execEncEsc, whenSelected_run hs] at h
          cases h; exact .encEsc hr hs ho ht hp hi hx h2
        · simp only [decodePayload, h1, h2, if_false] at h hs
          simp only [exec, execEncLit, whenSelected_run hs] at h
          cases h; exact .encLit _ hr hs ho ht hp hi hx rfl h1 h2
    · by_cases h1 : c = Config.END
      · subst h1
        simp only [decodeLiteral, if_true] at h hs
        simp only [exec, execDecEnd, whenSelected_run hs, consuming_cons hq] at h
        cases h; exact .decEnd q hr hs ho hd hq
      · by_cases h2 : c = Config.ESC
        · subst h2
          simp only [decodeLiteral, esc_ne_end, if_true, if_false] at h hs
          simp only [exec, execDecEsc, whenSelected_run hs, consuming_cons hq] at h
          cases h; exact .decEsc q hr hs ho hd hq
        · simp only [decodeLiteral, h1, h2, if_false] at h hs
          simp only [exec, execDecLit, whenSelected_run hs, consuming_cons hq] at h
          exact .decLit c q t hr hs ho hd hq h1 h2 h
    · by_cases h1 : c = Config.ESC_END
      · subst h1
        simp only [decodePending, if_true] at h hs
        simp only [exec, execDecXend, whenSelected_run hs, consuming_cons hq] at h
        exact .decXend q t hr hs ho hd hq h
      · by_cases h2 : c = Config.ESC_ESC
        · subst h2
          simp only [decodePending, escEsc_ne_escEnd, if_true, if_false] at h hs
          simp only [exec, execDecXesc, whenSelected_run hs, consuming_cons hq] at h
          exact .decXesc q t hr hs ho hd hq h
        · simp only [decodePending, h1, h2, if_false] at h hs
          simp only [exec, execDecXlit, whenSelected_run hs, consuming_cons hq] at h
          exact .decXlit c q t hr hs ho hd hq h1 h2 h

/-- Everything a turn can do: a clock edge on the rest of the script, or a move of another agent. -/
theorem step_cases {s t : State} (h : step s = .next t) :
    (s.script = [] ∧ EdgeStep s t) ∨
    (∃ rest, s.script = .edge :: rest ∧ EdgeStep { s with script := rest } t) ∨
    (∃ m rest, s.script = .agent m :: rest ∧ envMove m { s with script := rest } = .next t) := by
  unfold step takeTurn at h
  cases hs : s.script with
  | nil => rw [hs] at h; exact .inl ⟨rfl, edgeStep_of_clockEdge h⟩
  | cons u rest =>
    rw [hs] at h
    cases u with
    | edge => exact .inr (.inl ⟨rest, rfl, edgeStep_of_clockEdge h⟩)
    | agent m => exact .inr (.inr ⟨m, rest, rfl, h⟩)

end Sys2Proof.Laws
end

