-- ==== Sys2Proof/Laws/Run.lean ====
section
/-! SUPPORT. Runs of several steps, and the induction over a run packaged once. -/

namespace Sys2Proof.Laws

open Sys2Proof.Machine Sys2Proof.Safety

@[simp] theorem run_zero (s : State) : run 0 s = .next s := rfl

/-- What the host's run does first, for any machine. -/
theorem coreRun_next (M : Host.Core) {s u : M.State} (h : M.step s = .next u) (k : Nat) :
    M.run (k + 1) s = M.run k u := by
  simp only [Host.Core.run, h]

theorem coreRun_stops (M : Host.Core) {s t : M.State} {k : Nat} (h : ∀ u, M.step s ≠ .next u) :
    M.run (k + 1) s ≠ .next t := by
  unfold Host.Core.run
  cases hs : M.step s with
  | next u => exact absurd hs (h u)
  | fault r => simp
  | refused r => simp

/-- A run of one step more after a first step that answers a next state. -/
theorem run_succ {s u : State} (h : step s = .next u) (k : Nat) : run (k + 1) s = run k u :=
  coreRun_next core h k

/-- What a longer run that answers a next state begins with. -/
theorem run_succ_cases {s t : State} {k : Nat} (h : run (k + 1) s = .next t) :
    ∃ u, step s = .next u ∧ run k u = .next t := by
  by_cases hs : ∃ u, step s = .next u
  · obtain ⟨u, hu⟩ := hs
    exact ⟨u, hu, by rw [← run_succ hu]; exact h⟩
  · exact absurd h (coreRun_stops core fun u hu => hs ⟨u, hu⟩)

/-- Two runs one after the other. -/
theorem run_add {s u : State} {j : Nat} (h : run j s = .next u) (k : Nat) : run (j + k) s = run k u := by
  induction j generalizing s with
  | zero => cases h; rw [Nat.zero_add]
  | succ j ih =>
    obtain ⟨v, hv, hr⟩ := run_succ_cases h
    rw [Nat.add_right_comm, run_succ hv, ih hr]

/-- An invariant that every step keeps holds along every run. -/
theorem run_invariant {P : State → Prop} (hP : ∀ s t, P s → step s = .next t → P t) {s t : State} {k : Nat}
    (hs : P s) (h : run k s = .next t) : P t := by
  induction k generalizing s with
  | zero => cases h; exact hs
  | succ k ih =>
    obtain ⟨u, hu, hr⟩ := run_succ_cases h
    exact ih (hP s u hs hu) hr

/-- With an empty script a step is a clock edge. -/
theorem step_script_nil {s : State} (h : s.script = []) : step s = clockEdge s := by
  unfold step takeTurn; rw [h]

theorem step_script_edge {s : State} {rest : List Turn} (h : s.script = .edge :: rest) :
    step s = clockEdge { s with script := rest } := by
  unfold step takeTurn; rw [h]

theorem step_script_agent {s : State} {m : EnvMove} {rest : List Turn} (h : s.script = .agent m :: rest) :
    step s = envMove m { s with script := rest } := by
  unfold step takeTurn; rw [h]

end Sys2Proof.Laws
end

