-- ==== Sys2Proof/Tests/Slice0.lean ====
section
/-! SUPPORT. The model's own tests. Every expected value comes from spec/95_test_vectors.md (named in the comment) or is
written out by hand from the encoding tables of spec/30_encoding.md. The witnesses at the end show, for every statement with
hypotheses, a state and operands that meet them, one for each clause. -/

namespace Sys2Proof.Tests

open Sys2Proof Sys2Proof.Machine Sys2Proof.Safety

/-! ### Small states -/

/-- The reset state of a block with LW = 8. -/
def start : State := { State.reset with lw := 8 }

/-- A command presented to the idle block. -/
def presenting (op : BitVec 1) (arg : Nat) : State := { start with cmd := some ⟨op, arg⟩ }

/-- An encode call of `len` bytes with the cursor at `idx`. -/
def encoding (pl : Mem) (len idx : Nat) : State := { start with op := .ENC, PL := pl, e_len := len, e_idx := idx }

/-- An encode call that owes the second byte of an escape sequence; `e_pend` is `second`. -/
def owing (second : Byte) : State :=
  { encoding [(0, 0x0A), (1, 0x55)] 2 1 with e_phase := .E_ESC2, e_pend := second, txq := [0x0B] }

/-- The filler of 95_test_vectors.md in the first four indices of DB. -/
def filler : Mem := [(0, 0xEE), (1, 0xEE), (2, 0xEE), (3, 0xEE)]

/-- A decode call in state `d` with the bytes `q` unread. -/
def decoding (d : DState) (q : List Byte) (cap len : Nat) : State :=
  { start with op := .DEC, d_state := d, rxq := q, d_cap := cap, d_len := len, DB := filler }

/-- `[41 0A 42]` in PL (S-6). -/
def pl6 : Mem := [(0, 0x41), (1, 0x0A), (2, 0x42)]

/-! ### Well-formed instructions -/

theorem test_wf_commands : wellFormed 8 (.encode 255) = true ∧ wellFormed 8 (.decode 0) = true := by decide
theorem test_illformed_encode : wellFormed 8 (.encode 256) = false := by decide
theorem test_illformed_decode : wellFormed 8 (.decode 256) = false := by decide
theorem test_illformed_encLit_end : wellFormed 8 (.encLit 0x0A) = false := by decide
theorem test_illformed_encLit_esc : wellFormed 8 (.encLit 0x0B) = false := by decide
theorem test_illformed_decLit_end : wellFormed 8 (.decLit 0x0A) = false := by decide
theorem test_illformed_decLit_esc : wellFormed 8 (.decLit 0x0B) = false := by decide
theorem test_illformed_decXlit_escEnd : wellFormed 8 (.decXlit 0x1A) = false := by decide
theorem test_illformed_decXlit_escEsc : wellFormed 8 (.decXlit 0x1B) = false := by decide
theorem test_wf_catch_alls : wellFormed 8 (.encLit 0x1A) = true ∧ wellFormed 8 (.decLit 0x1B) = true ∧
    wellFormed 8 (.decXlit 0x0A) = true ∧ wellFormed 8 (.decXlit 0x0B) = true := by decide

/-! ### Decoding: words written out from R45, R46, R49, R50 -/

/-- P1: `ENCODE 3` packs to `0 0000 0110`. -/
theorem test_decode_encode : decode 8 .command 0b000000110 = .ok (.encode 3) := by decide
/-- P2: `DECODE 8` packs to `0 0001 0001`. -/
theorem test_decode_decode : decode 8 .command 0b000010001 = .ok (.decode 8) := by decide
/-- All LW bits of `cmd_arg` are read (R50). -/
theorem test_decode_longest : decode 8 .command 0b111111110 = .ok (.encode 255) := by decide
theorem test_decode_encX2 : decode 8 .escapePending 0 = .ok .encX2 := by decide
theorem test_decode_encClose : decode 8 .payloadDone 0 = .ok .encClose := by decide
theorem test_decode_encEnd : decode 8 .payload 0b00001010 = .ok .encEnd := by decide
theorem test_decode_encEsc : decode 8 .payload 0b00001011 = .ok .encEsc := by decide
theorem test_decode_encLit : decode 8 .payload 0b00011010 = .ok (.encLit 0x1A) := by decide
theorem test_decode_decEnd : decode 8 .wireLiteral 0b00001010 = .ok .decEnd := by decide
theorem test_decode_decEsc : decode 8 .wireLiteral 0b00001011 = .ok .decEsc := by decide
theorem test_decode_decLit : decode 8 .wireLiteral 0b00011011 = .ok (.decLit 0x1B) := by decide
theorem test_decode_decXend : decode 8 .wirePending 0b00011010 = .ok .decXend := by decide
theorem test_decode_decXesc : decode 8 .wirePending 0b00011011 = .ok .decXesc := by decide
theorem test_decode_decXlit : decode 8 .wirePending 0b00001010 = .ok (.decXlit 0x0A) := by decide
theorem test_tooWide_command : decode 8 .command 512 = .error (.tooWide .command) := by decide
theorem test_tooWide_byte : decode 8 .wireLiteral 256 = .error (.tooWide .wireLiteral) := by decide
theorem test_tooWide_state : decode 8 .payloadDone 1 = .error (.tooWide .payloadDone) := by decide

/-- The two commands of the table by their bare words (log 11). -/
theorem test_tableWord_commands : decodeTableWord 8 0 = some (.encode 0) ∧ decodeTableWord 8 1 = some (.decode 0) := by
  decide
/-- The four control bytes by their bare words (log 11). -/
theorem test_tableWord_bytes : decodeTableWord 8 0x0A = some .decEnd ∧ decodeTableWord 8 0x0B = some .decEsc ∧
    decodeTableWord 8 0x1A = some .decXend ∧ decodeTableWord 8 0x1B = some .decXesc := by decide
theorem test_tableWord_refused : decodeTableWord 8 256 = none ∧ decodeTableWord 0 0 = none := by decide
/-- A placed word runs as the first instruction after reset. -/
theorem test_withFetchWord : (next? (step (State.reset.withFetchWord 8 0x0A))).map (·.d_state) = some .DONE := by decide
theorem test_withFetchWord_command : (next? (step (State.reset.withFetchWord 8 7))).map (·.d_cap) = some 3 := by decide

/-! ### One step of each instruction -/

/-- V-C1. -/
theorem test_encode_zero : exec (.encode 0) (presenting 0 0) = .next start := by rfl
/-- V-C2. -/
theorem test_encode : exec (.encode 3) (presenting 0 3) = .next { start with op := .ENC, e_len := 3 } := by rfl
/-- V-C3. -/
theorem test_decode : exec (.decode 8) (presenting 1 8) = .next { start with op := .DEC, d_cap := 8 } := by rfl
/-- V-C5. -/
theorem test_decode_clears :
    exec (.decode 8) { presenting 1 8 with d_state := .DONE, OVF := true, MAL := true, e_len := 1, e_idx := 1 } =
      .next { start with op := .DEC, d_cap := 8, e_len := 1, e_idx := 1 } := by rfl
/-- P1, row 2. -/
theorem test_encLit : exec (.encLit 0x41) (encoding pl6 3 0) = .next { encoding pl6 3 1 with txq := [0x41] } := by rfl
/-- V-E5: `1A` in the payload is not escaped. -/
theorem test_encLit_1A : (next? (clockEdge (encoding [(0, 0x1A)] 1 0))).map (·.txq) = some [0x1A] := by decide
/-- P1, row 3. -/
theorem test_encEnd : exec .encEnd (encoding pl6 3 1) =
    .next { encoding pl6 3 2 with txq := [0x0B], e_phase := .E_ESC2, e_pend := 0x1A } := by rfl
/-- P3, A's row 1. -/
theorem test_encEsc : exec .encEsc (encoding [(0, 0x0B), (1, 0x0B)] 2 0) =
    .next { encoding [(0, 0x0B), (1, 0x0B)] 2 1 with txq := [0x0B], e_phase := .E_ESC2, e_pend := 0x1B } := by rfl
/-- P1, row 4: the cursor stays and `e_pend` keeps its value. -/
theorem test_encX2 : exec .encX2 (owing 0x1A) =
    .next { owing 0x1A with txq := [0x0B, 0x1A], e_phase := .E_FETCH } := by rfl
/-- P1, row 6. -/
theorem test_encClose : exec .encClose (encoding pl6 3 3) = .next { encoding pl6 3 3 with op := .IDLE, txq := [0x0A] } := by
  rfl
/-- P2, row 6. -/
theorem test_decEnd : exec .decEnd (decoding .LITERAL [0x0A, 0x42] 8 3) =
    .next { decoding .DONE [0x42] 8 3 with op := .IDLE } := by rfl
/-- P4, row 5: on a full buffer no flag is set by the introducer. -/
theorem test_decEsc : exec .decEsc (decoding .LITERAL [0x0B, 0x1A] 2 2) =
    .next (decoding .PENDING_ESCAPE [0x1A] 2 2) := by rfl
/-- P2, row 2. -/
theorem test_decLit : exec (.decLit 0x41) (decoding .LITERAL [0x41, 0x0B] 8 0) = .next
    { decoding .LITERAL [0x0B] 8 1 with DB := [(0, 0x41), (1, 0xEE), (2, 0xEE), (3, 0xEE)] } := by rfl
/-- P4, row 4: the byte is dropped, DB[2] keeps its byte. -/
theorem test_decLit_full : exec (.decLit 0x03) (decoding .LITERAL [0x03] 2 2) =
    .next { decoding .LITERAL [] 2 2 with OVF := true } := by rfl
/-- P2, row 4. -/
theorem test_decXend : exec .decXend (decoding .PENDING_ESCAPE [0x1A, 0x42] 8 1) = .next
    { decoding .LITERAL [0x42] 8 2 with DB := [(0, 0xEE), (1, 0x0A), (2, 0xEE), (3, 0xEE)] } := by rfl
/-- P4, row 6. -/
theorem test_decXend_full : exec .decXend (decoding .PENDING_ESCAPE [0x1A] 2 2) =
    .next { decoding .LITERAL [] 2 2 with OVF := true } := by rfl
/-- P3, B's row 4: exact fit sets no flag. -/
theorem test_decXesc : exec .decXesc (decoding .PENDING_ESCAPE [0x1B, 0x0A] 2 1) = .next
    { decoding .LITERAL [0x0A] 2 2 with DB := [(0, 0xEE), (1, 0x0B), (2, 0xEE), (3, 0xEE)] } := by rfl
/-- V-D5: `0A` after `ESC` is data. -/
theorem test_decXlit : exec (.decXlit 0x0A) (decoding .PENDING_ESCAPE [0x0A, 0x0A] 4 0) = .next
    { decoding .LITERAL [0x0A] 4 1 with MAL := true, DB := [(0, 0x0A), (1, 0xEE), (2, 0xEE), (3, 0xEE)] } := by rfl
/-- V-D12: both flags set by one step; V-X7: the status word is then 11. -/
theorem test_decXlit_full :
    (next? (exec (.decXlit 0x99) (decoding .PENDING_ESCAPE [0x99] 0 0))).map (fun t => (status t, t.DB)) =
      some (0b11, filler) := by decide

/-! ### Reset, holds and other agents -/

/-- V-R1. -/
theorem test_reset_in_encode : clockEdge { owing 0x1A with rst := true } =
    .next { start with rst := true, PL := [(0, 0x0A), (1, 0x55)], txq := [0x0B] } := by rfl
/-- V-R3. -/
theorem test_reset_in_decode : clockEdge { decoding .PENDING_ESCAPE [0x1A, 0x42, 0x0A] 4 1 with rst := true } =
    .next { start with rst := true, DB := filler, rxq := [0x1A, 0x42, 0x0A] } := by rfl
/-- V-R5. -/
theorem test_reset_wins : clockEdge { presenting 0 3 with rst := true } = .next { presenting 0 3 with rst := true } := by rfl
/-- V-C7: a command presented to a waiting decode stays presented. -/
theorem test_busy : clockEdge { decoding .LITERAL [] 4 0 with cmd := some ⟨0, 2⟩ } =
    .next { decoding .LITERAL [] 4 0 with cmd := some ⟨0, 2⟩ } := by rfl
/-- V-E14: held inside the escape pair. -/
theorem test_not_ready : clockEdge { owing 0x1A with tx_ready := false } = .next { owing 0x1A with tx_ready := false } := by
  rfl
/-- A listed turn is taken first: the transport delivers, nothing else changes. -/
theorem test_turn : step { decoding .LITERAL [] 4 0 with script := [.agent (.deliver 0x41), .edge] } =
    .next { decoding .LITERAL [0x41] 4 0 with script := [.edge] } := by rfl
/-- The canonical form: writing what an unlisted index reads as removes the entry. -/
theorem test_write_removes : Mem.write filler 1 0x00 = [(0, 0xEE), (2, 0xEE), (3, 0xEE)] := by decide
/-- V-E10's frame by the reference function. -/
theorem test_enc : enc [0x1A, 0x1B, 0x0A, 0x0B] = [0x1A, 0x1B, 0x0B, 0x1A, 0x0B, 0x1B, 0x0A] := by decide
/-- V-D15 and V-D16 by the reference function. -/
theorem test_dec : dec [0x0B, 0x1A, 0x0B, 0x1B, 0x0B, 0x00, 0x0A] = some ([0x0A, 0x0B, 0x00], true, []) ∧
    dec [0x0B, 0x0B, 0x0B, 0x0A] = none := by decide


/-! ### Witnesses: the hypotheses of every statement that has some, clause by clause -/

theorem witness_ResetEdgeTakesResetValues :
    { owing 0x1A with rst := true }.rst = true ∧
    clockEdge { owing 0x1A with rst := true } = .next (resetRegisters { owing 0x1A with rst := true }) ∧
    (owing 0x1A).op ≠ .IDLE ∧ (resetRegisters (owing 0x1A)).op = .IDLE := by
  and_intros <;> first | rfl | decide

/-- Lengths 0 and 2^LW - 1. -/
theorem witness_EncodeCommandResult :
    (presenting 0 0).rst = false ∧ (presenting 0 0).op = .IDLE ∧ (presenting 0 0).cmd = some ⟨0, 0⟩ ∧
    0 < 2 ^ (presenting 0 0).lw ∧ (presenting 0 255).rst = false ∧ (presenting 0 255).op = .IDLE ∧
    (presenting 0 255).cmd = some ⟨0, 255⟩ ∧ 255 < 2 ^ (presenting 0 255).lw := by
  decide

/-- Capacities 0 and 2^LW - 1. -/
theorem witness_DecodeCommandResult :
    (presenting 1 0).rst = false ∧ (presenting 1 0).op = .IDLE ∧ (presenting 1 0).cmd = some ⟨1, 0⟩ ∧
    0 < 2 ^ (presenting 1 0).lw ∧ (presenting 1 255).rst = false ∧ (presenting 1 255).op = .IDLE ∧
    (presenting 1 255).cmd = some ⟨1, 255⟩ ∧ 255 < 2 ^ (presenting 1 255).lw := by
  decide

theorem witness_CommandWhileBusyHasNoEffect :
    (owing 0x1A).op ≠ .IDLE ∧ (presenting 1 4).op = .IDLE ∧ (presenting 1 4).rst = false ∧
    (presenting 1 4).cmd = some ⟨1, 4⟩ ∧ 4 < 2 ^ (presenting 1 4).lw := by
  decide

theorem witness_DispatchByOp :
    (∃ s : State, s.rst = false ∧ s.op = .IDLE ∧ s.cmd = none) ∧
    (∃ s : State, s.rst = false ∧ s.op = .ENC ∧ txReady s = false) ∧
    (∃ s : State, s.rst = false ∧ s.op = .DEC ∧ rxAvail s = false) ∧
    (∃ s : State, s.rst = false ∧ s.op = .IDLE ∧ s.cmd = some ⟨0, 255⟩ ∧ 255 < 2 ^ s.lw) ∧
    (∃ s : State, select s = .run .encX2 ∧ s.rst = false ∧ (next? (clockEdge s)).isSome = true) :=
  ⟨⟨start, by decide⟩,
   ⟨{ owing 0x1A with tx_ready := false }, by decide⟩,
   ⟨decoding .LITERAL [] 4 0, by decide⟩,
   ⟨presenting 0 255, by decide⟩,
   ⟨owing 0x1A, by decide⟩⟩

/-- The last index of a payload, and a byte that only looks like a control byte. -/
theorem witness_EncLitResult :
    (∃ s : State, s.rst = false ∧ s.op = .ENC ∧ s.e_phase = .E_FETCH ∧ s.e_idx < s.e_len ∧ txReady s = true ∧
      plRead s s.e_idx = some 0x42 ∧ (0x42 : Byte) ≠ Config.END ∧ (0x42 : Byte) ≠ Config.ESC) ∧
    (∃ s : State, s.rst = false ∧ s.op = .ENC ∧ s.e_phase = .E_FETCH ∧ s.e_idx < s.e_len ∧ txReady s = true ∧
      plRead s s.e_idx = some 0x1B ∧ (0x1B : Byte) ≠ Config.END ∧ (0x1B : Byte) ≠ Config.ESC) :=
  ⟨⟨encoding pl6 3 2, by decide⟩,
   ⟨encoding [(0, 0x1B)] 1 0, by decide⟩⟩

theorem witness_EncEndAndEncEscResult :
    (∃ s : State, s.rst = false ∧ s.op = .ENC ∧ s.e_phase = .E_FETCH ∧ s.e_idx < s.e_len ∧ txReady s = true ∧
      plRead s s.e_idx = some Config.END) ∧
    (∃ s : State, s.rst = false ∧ s.op = .ENC ∧ s.e_phase = .E_FETCH ∧ s.e_idx < s.e_len ∧ txReady s = true ∧
      plRead s s.e_idx = some Config.ESC) :=
  ⟨⟨encoding pl6 3 1, by decide⟩,
   ⟨encoding [(0, 0x0B)] 1 0, by decide⟩⟩

theorem witness_EncX2Result :
    (owing 0x1B).rst = false ∧ (owing 0x1B).op = .ENC ∧ (owing 0x1B).e_phase = .E_ESC2 ∧
      txReady (owing 0x1B) = true := by
  decide

theorem witness_EncCloseResult :
    (encoding pl6 3 3).rst = false ∧ (encoding pl6 3 3).op = .ENC ∧ (encoding pl6 3 3).e_phase = .E_FETCH ∧
    (encoding pl6 3 3).e_idx = (encoding pl6 3 3).e_len ∧ txReady (encoding pl6 3 3) = true := by
  decide

theorem witness_EncoderStepSelection :
    (encoding pl6 3 0).rst = false ∧ (encoding pl6 3 0).op = .ENC ∧
    txReady { encoding pl6 3 0 with tx_ready := false } = false ∧
    (txReady (owing 0x1A) = true ∧ (owing 0x1A).e_phase = .E_ESC2) ∧
    (txReady (encoding pl6 3 3) = true ∧ (encoding pl6 3 3).e_idx = (encoding pl6 3 3).e_len) ∧
    (txReady (encoding pl6 3 0) = true ∧ (encoding pl6 3 0).e_phase = .E_FETCH ∧
      plRead (encoding pl6 3 0) 0 = some 0x41) ∧
    clockEdge (encoding pl6 3 0) = .next { encoding pl6 3 1 with txq := [0x41] } := by
  and_intros <;> rfl

theorem witness_EncoderTouchesNoDecoderState :
    (owing 0x1A).rst = false ∧ (owing 0x1A).op = .ENC ∧
    clockEdge (owing 0x1A) = .next { owing 0x1A with txq := [0x0B, 0x1A], e_phase := .E_FETCH } := by
  and_intros <;> rfl

/-- A transfer on each channel, and none. -/
theorem witness_ChannelsTransferByHandshake :
    (clockEdge (presenting 0 3) = .next { start with op := .ENC, e_len := 3 } ∧ cmdTransfer (presenting 0 3) = true) ∧
    (clockEdge (owing 0x1A) = .next { owing 0x1A with txq := [0x0B, 0x1A], e_phase := .E_FETCH } ∧
      txTransfer (owing 0x1A) = true) ∧
    (clockEdge (decoding .LITERAL [0x0B] 2 2) = .next (decoding .PENDING_ESCAPE [] 2 2) ∧
      rxTransfer (decoding .LITERAL [0x0B] 2 2) = true) ∧
    (clockEdge start = .next start ∧ cmdTransfer start = false ∧ rxTransfer start = false ∧
      txTransfer start = false) := by
  and_intros <;> rfl

/-- The last free index, and a full buffer. -/
theorem witness_DestinationWritesFollowPort :
    filler.wf = true ∧ db_we (decoding .LITERAL [0x41] 1 0) = true ∧
    (next? (clockEdge (decoding .LITERAL [0x41] 1 0))).map (·.d_len) = some 1 ∧
    db_we (decoding .LITERAL [0x41] 1 1) = false ∧
    clockEdge (decoding .LITERAL [0x41] 1 1) = .next { decoding .LITERAL [] 1 1 with OVF := true } := by
  and_intros <;> rfl

/-- One byte below the capacity, and at it. -/
theorem witness_AppendStoresOrRecordsOverflow :
    InRange (decoding .LITERAL [] 255 254) ∧ filler.wf = true ∧
    (decoding .LITERAL [] 255 254).d_len < (decoding .LITERAL [] 255 254).d_cap ∧
      InRange (decoding .LITERAL [] 255 255) ∧
    (decoding .LITERAL [] 255 255).d_cap ≤ (decoding .LITERAL [] 255 255).d_len := by
  decide

theorem witness_DecEndResult :
    (decoding .LITERAL [0x0A] 4 4).rst = false ∧ (decoding .LITERAL [0x0A] 4 4).op = .DEC ∧
    (decoding .LITERAL [0x0A] 4 4).d_state = .LITERAL ∧ (decoding .LITERAL [0x0A] 4 4).rxq = Config.END :: [] := by
  decide

theorem witness_DecEscResult :
    (decoding .LITERAL [0x0B] 0 0).rst = false ∧ (decoding .LITERAL [0x0B] 0 0).op = .DEC ∧
    (decoding .LITERAL [0x0B] 0 0).d_state = .LITERAL ∧ (decoding .LITERAL [0x0B] 0 0).rxq = Config.ESC :: [] := by
  decide

/-- One byte below the capacity, and at it. -/
theorem witness_DecLitResult :
    (∃ s : State, InRange s ∧ s.DB.wf = true ∧ s.rst = false ∧ s.op = .DEC ∧ s.d_state = .LITERAL ∧
      s.rxq = 0x1A :: [] ∧ s.d_len < s.d_cap) ∧
    (∃ s : State, InRange s ∧ s.DB.wf = true ∧ s.rst = false ∧ s.op = .DEC ∧ s.d_state = .LITERAL ∧
      s.rxq = 0x1A :: [] ∧ s.d_cap ≤ s.d_len) :=
  ⟨⟨decoding .LITERAL [0x1A] 255 254, by decide⟩,
   ⟨decoding .LITERAL [0x1A] 0 0, by decide⟩⟩

/-- One byte below the capacity, and at it. -/
theorem witness_DecXlitResult :
    (∃ s : State, InRange s ∧ s.DB.wf = true ∧ s.rst = false ∧ s.op = .DEC ∧ s.d_state = .PENDING_ESCAPE ∧
      s.rxq = 0x0A :: [] ∧ s.d_len < s.d_cap) ∧
    (∃ s : State, InRange s ∧ s.DB.wf = true ∧ s.rst = false ∧ s.op = .DEC ∧ s.d_state = .PENDING_ESCAPE ∧
      s.rxq = 0x0A :: [] ∧ s.d_cap ≤ s.d_len) :=
  ⟨⟨decoding .PENDING_ESCAPE [0x0A] 255 254, by decide⟩,
   ⟨decoding .PENDING_ESCAPE [0x0A] 0 0, by decide⟩⟩

/-- One byte below the capacity, and at it. -/
theorem witness_DecXendAndDecXescResult :
    (∃ s : State, InRange s ∧ s.DB.wf = true ∧ s.rst = false ∧ s.op = .DEC ∧ s.d_state = .PENDING_ESCAPE ∧
      s.rxq = Config.ESC_END :: [] ∧ s.d_len < s.d_cap) ∧
    (∃ s : State, InRange s ∧ s.DB.wf = true ∧ s.rst = false ∧ s.op = .DEC ∧ s.d_state = .PENDING_ESCAPE ∧
      s.rxq = Config.ESC_END :: [] ∧ s.d_cap ≤ s.d_len) ∧
    (∃ s : State, InRange s ∧ s.DB.wf = true ∧ s.rst = false ∧ s.op = .DEC ∧ s.d_state = .PENDING_ESCAPE ∧
      s.rxq = Config.ESC_ESC :: [] ∧ s.d_len < s.d_cap) ∧
    (∃ s : State, InRange s ∧ s.DB.wf = true ∧ s.rst = false ∧ s.op = .DEC ∧ s.d_state = .PENDING_ESCAPE ∧
      s.rxq = Config.ESC_ESC :: [] ∧ s.d_cap ≤ s.d_len) :=
  ⟨⟨decoding .PENDING_ESCAPE [0x1A] 2 1, by decide⟩,
   ⟨decoding .PENDING_ESCAPE [0x1A] 2 2, by decide⟩,
   ⟨decoding .PENDING_ESCAPE [0x1B] 2 1, by decide⟩,
   ⟨decoding .PENDING_ESCAPE [0x1B] 2 2, by decide⟩⟩

theorem witness_DecoderStepSelection :
    (decoding .LITERAL [] 4 0).rst = false ∧ (decoding .LITERAL [] 4 0).op = .DEC ∧
    rxAvail (decoding .LITERAL [] 4 0) = false ∧ (decoding .LITERAL [0x0A] 4 0).rxq = 0x0A :: [] ∧
    (decoding .LITERAL [0x0A] 4 0).d_state = .LITERAL ∧ (decoding .PENDING_ESCAPE [0x0A] 4 0).rxq = 0x0A :: [] ∧
    (decoding .PENDING_ESCAPE [0x0A] 4 0).d_state = .PENDING_ESCAPE ∧
    clockEdge (decoding .LITERAL [0x0A] 4 0) = .next { decoding .DONE [] 4 0 with op := .IDLE } := by
  and_intros <;> rfl

/-- V-D19. -/
theorem witness_DecoderHoldsForever :
    (decoding .LITERAL [] 4 0).rst = false ∧ (decoding .LITERAL [] 4 0).op = .DEC ∧
    (decoding .LITERAL [] 4 0).rxq = [] ∧ (decoding .LITERAL [] 4 0).script = [] := by
  decide

theorem witness_FlagsChangeOnlyByRule :
    (decoding .LITERAL [0x41] 1 1).rst = false ∧
    clockEdge (decoding .LITERAL [0x41] 1 1) = .next { decoding .LITERAL [] 1 1 with OVF := true } ∧
    (next? (clockEdge (decoding .PENDING_ESCAPE [0x41] 1 0))).map (·.MAL) = some true ∧
    clockEdge { start with OVF := true } = .next { start with OVF := true } := by
  and_intros <;> rfl

theorem witness_DecodeResultStaysReadable :
    (encoding pl6 3 3).rst = false ∧ (encoding pl6 3 3).op ≠ .DEC ∧
    clockEdge (encoding pl6 3 3) = .next { encoding pl6 3 3 with op := .IDLE, txq := [0x0A] } ∧
    select (encoding pl6 3 3) = .run .encClose := by
  and_intros <;> first | rfl | decide

/-- A change of every register. -/
theorem witness_RegistersChangeOnlyByTheirWriters :
    (presenting 0 3).rst = false ∧ clockEdge (presenting 0 3) = .next { start with op := .ENC, e_len := 3 } ∧
    { start with op := Op.ENC, e_len := 3 }.op ≠ (presenting 0 3).op ∧
    (next? (clockEdge (encoding pl6 3 1))).map (fun t => (t.e_idx, t.e_phase, t.e_pend)) = some (2, .E_ESC2, 0x1A) ∧
    (next? (clockEdge (decoding .PENDING_ESCAPE [0x41] 1 0))).map (fun t => (t.d_state, t.d_len, t.MAL)) =
      some (.LITERAL, 1, true) ∧
    (next? (clockEdge (presenting 1 4))).map (·.d_cap) = some 4 ∧
    (next? (clockEdge (decoding .LITERAL [0x41] 1 1))).map (·.OVF) = some true := by
  and_intros <;> first | rfl | decide

theorem witness_EveryStepKeepsInvariants :
    Sound (owing 0x1A) ∧ step (owing 0x1A) = .next { owing 0x1A with txq := [0x0B, 0x1A], e_phase := .E_FETCH } ∧
    Sound (decoding .LITERAL [0x41] 2 1) ∧ Sound { decoding .PENDING_ESCAPE [0x41] 2 2 with OVF := true } := by
  and_intros <;> first | rfl | decide

theorem witness_EncodeCallEnteredInFetch :
    step (presenting 0 3) = .next { start with op := .ENC, e_len := 3 } ∧ (presenting 0 3).op ≠ .ENC ∧
    { start with op := Op.ENC, e_len := 3 }.op = .ENC := by
  and_intros <;> first | rfl | decide

/-- A step that owes the escaped terminator, with no write of PL to come. -/
theorem witness_OwedEscapeMatchesPayload :
    EscapeMatchesPayload (encoding pl6 3 1) ∧
    step (encoding pl6 3 1) = .next { encoding pl6 3 2 with txq := [0x0B], e_phase := .E_ESC2, e_pend := 0x1A } ∧
    ∀ i b rest, (encoding pl6 3 1).script ≠ .agent (.writePL i b) :: rest :=
  ⟨by decide, rfl, fun _ _ _ h => by cases h⟩

theorem witness_NothingTraps :
    Sound { presenting 0 255 with script := [.agent (.writePL 255 0x0A), .edge] } ∧
    EnvFits { presenting 0 255 with script := [.agent (.writePL 255 0x0A), .edge] } := by
  decide

theorem witness_ParameterNeverChanges :
    run 1 (presenting 0 3) = .next { start with op := .ENC, e_len := 3 } := rfl

theorem witness_DecodeOfEncode :
    wellFormed 8 (.encode 255) = true ∧ wellFormed 8 (.decode 255) = true ∧ wellFormed 8 (.encLit 0xFF) = true ∧
    wellFormed 8 (.decLit 0x00) = true ∧ wellFormed 8 (.decXlit 0xFF) = true ∧ wellFormed 1 .encX2 = true := by
  decide

theorem witness_EncodeOfDecode :
    decode 8 .command 0x1FF = .ok (.decode 255) ∧ decode 8 .payload 0xFF = .ok (.encLit 0xFF) := by
  decide

theorem witness_DecoderFollowsOpcodeTable :
    decode 8 .command 0x1FF = .ok (.decode 255) ∧ decode 8 .wirePending 0x1C = .ok (.decXlit 0x1C) := by
  decide

/-- A word in each of the six contexts. -/
theorem witness_StepRunsDecodedInstruction :
    ((encoding pl6 3 1).script = [] ∧ wordAt (encoding pl6 3 1) = some (.payload, 0x0A) ∧
      decode (encoding pl6 3 1).lw .payload 0x0A = .ok .encEnd) ∧
    ({ owing 0x1A with script := [Turn.edge] }.script = .edge :: [] ∧
      wordAt { owing 0x1A with script := [Turn.edge] } = some (.escapePending, 0) ∧
      decode 8 .escapePending 0 = .ok .encX2) ∧
    wordAt (presenting 1 8) = some (.command, 0x011) ∧ wordAt (encoding pl6 3 3) = some (.payloadDone, 0) ∧
    wordAt (decoding .LITERAL [0x0B] 4 0) = some (.wireLiteral, 0x0B) ∧
    wordAt (decoding .PENDING_ESCAPE [0x1B] 4 0) = some (.wirePending, 0x1B) := by
  decide

theorem witness_OtherAgentsTouchNoRegister :
    { start with script := [Turn.agent (.deliver 0x41)] }.script = .agent (.deliver 0x41) :: [] ∧
    step { start with script := [Turn.agent (.deliver 0x41)] } = .next { start with rxq := [0x41] } := by
  and_intros <;> rfl

theorem witness_EnvironmentMoveEffects :
    { start with rxq := [0x41, 0x42] }.rxq = [0x41] ++ 0x42 :: [] ∧ { start with txq := [0x0A] }.txq = 0x0A :: [] ∧
    (encoding pl6 3 0).PL.wf = true ∧ 255 < 2 ^ (encoding pl6 3 0).lw ∧ (decoding .LITERAL [] 4 0).DB.wf = true := by
  decide

/-- Another PL with the same byte at the cursor; any other PL while the transport is not ready. -/
theorem witness_PayloadReadOnlyAtCursor :
    (∃ s : State, s.rst = false ∧ s.op = .ENC ∧ txReady s = true ∧ s.e_phase = .E_FETCH ∧ s.e_idx < s.e_len ∧
      Mem.read [(1, 0x0A)] s.e_idx = s.PL.read s.e_idx ∧ s.PL ≠ [(1, 0x0A)]) ∧
    (∃ s : State, txReady s = false ∧ s.op = .ENC ∧ Mem.read [(1, 0x0B)] s.e_idx ≠ s.PL.read s.e_idx) :=
  ⟨⟨encoding pl6 3 1, by decide⟩,
   ⟨{ encoding pl6 3 1 with tx_ready := false }, by decide⟩⟩

theorem witness_NoCallDependsOnEarlierCall :
    SameCall (presenting 0 3) { presenting 0 3 with e_pend := 0x1A, d_len := 7, OVF := true } ∧
    SameCall (encoding pl6 3 1) { encoding pl6 3 1 with e_pend := 0x1B, d_state := .DONE, MAL := true } ∧
    step (presenting 0 3) = .next { start with op := .ENC, e_len := 3 } := by
  and_intros <;> first | rfl | decide

/-- S-6 and S-8. -/
theorem witness_EncodeCallOutput :
    (∃ s : State, s.rst = false ∧ s.op = .IDLE ∧ s.cmd = some ⟨0, 3⟩ ∧ 3 < 2 ^ s.lw ∧ txReady s = true ∧ s.script = [] ∧
      enc (payload s.PL 3) = [0x41, 0x0B, 0x1A, 0x42, 0x0A]) ∧
    (∃ s : State, s.rst = false ∧ s.op = .IDLE ∧ s.cmd = some ⟨0, 0⟩ ∧ 0 < 2 ^ s.lw ∧ txReady s = true ∧ s.script = [] ∧
      enc (payload s.PL 0) = []) :=
  ⟨⟨{ presenting 0 3 with PL := pl6 }, by decide⟩,
   ⟨presenting 0 0, by decide⟩⟩

/-- An encode call with back-pressure, a held command, a byte sent away and a write of PL in mid-call. -/
def disturbed : State :=
  { encoding pl6 3 0 with
    cmd := some ⟨1, 4⟩
    script := [.agent (.setTxReady false), .edge, .agent (.writePL 0 0x0B), .agent (.setTxReady true), .edge,
      .agent .sendOldest, .edge] }

/-- An encode call of one byte that ends, with the host withdrawing its command before the end. -/
def undisturbed : State :=
  { encoding [(0, 0x0A)] 1 0 with cmd := some ⟨0, 1⟩, script := [.edge, .edge, .agent .withdraw, .edge] }

/-- An encode call that is reset between the two bytes of an escape sequence (V-R1). -/
def abandoned : State := { encoding [(0, 0x0A), (1, 0x55)] 2 0 with script := [.edge, .agent (.setRst true), .edge] }

/-- Every boundary before step `k` that answers a state meets `P`. -/
def boundaries (k : Nat) (s : State) (P : State → Bool) : Bool :=
  (List.range k).all fun j => ((next? (run j s)).map P).getD true

/-- The Boolean form of the hypothesis on the boundaries of a call. -/
theorem boundaries_spec {k : Nat} {s : State} {o : Op} (h : boundaries k s (fun u => u.op == o || u.cmd == none) = true) :
    ∀ j u, j < k → run j s = .next u → u.op = o ∨ u.cmd = none := by
  intro j u hj hr
  have hb := List.all_eq_true.1 h j (List.mem_range.2 hj)
  rw [hr] at hb
  simpa [next?] using hb

theorem witness_EncodeCallUnderAnyEnvironment_call :
    disturbed.op = .ENC ∧ disturbed.e_phase = .E_FETCH ∧ disturbed.e_idx = 0 ∧ 1 ≤ disturbed.e_len ∧
    (∀ j u, j < 7 → run j disturbed = .next u → u.op = .ENC ∨ u.cmd = none) ∧
    (next? (run 7 disturbed)).map (fun t => (t.op, t.e_pend, t.txq)) = some (.ENC, 0x1B, [0x1B]) :=
  ⟨rfl, rfl, rfl, by decide, boundaries_spec (by decide), by decide⟩

/-- V-E2; reset is not driven and PL is not written. -/
theorem witness_EncodeCallUnderAnyEnvironment_end :
    undisturbed.op = .ENC ∧ undisturbed.e_phase = .E_FETCH ∧ undisturbed.e_idx = 0 ∧ 1 ≤ undisturbed.e_len ∧
    (∀ j u, j < 4 → run j undisturbed = .next u → u.op = .ENC ∨ u.cmd = none) ∧ undisturbed.rst = false ∧
    (∀ v, .agent (.setRst v) ∉ undisturbed.script.take 4) ∧
    (∀ i b, .agent (.writePL i b) ∉ undisturbed.script.take 4) ∧
    (next? (run 4 undisturbed)).map (fun t => (t.op, t.txq)) = some (.IDLE, [0x0B, 0x1A, 0x0A]) :=
  ⟨rfl, rfl, rfl, by decide, boundaries_spec (by decide), rfl, by simp [undisturbed], by simp [undisturbed], by decide⟩

/-- V-R1. -/
theorem witness_EncodeCallUnderAnyEnvironment_reset :
    abandoned.op = .ENC ∧ abandoned.e_phase = .E_FETCH ∧ abandoned.e_idx = 0 ∧ 1 ≤ abandoned.e_len ∧
    (∀ j u, j < 3 → run j abandoned = .next u → u.op = .ENC ∨ u.cmd = none) ∧
    (next? (run 3 abandoned)).map (fun t => (registers t, t.txq)) = some (registers State.reset, [0x0B]) :=
  ⟨rfl, rfl, rfl, by decide, boundaries_spec (by decide), rfl⟩

/-- P4: a frame of four bytes for a capacity of two. -/
def overflowing : State := { presenting 1 2 with rxq := [0x01, 0x02, 0x03, 0x0B, 0x1A, 0x0A], DB := filler }

/-- V-D16: no whole frame. -/
def unfinished : State := { presenting 1 4 with rxq := [0x0B, 0x0B, 0x0B, 0x0A], DB := filler }

theorem witness_DecodeCallResult :
    (∃ s : State, s.rst = false ∧ s.op = .IDLE ∧ s.cmd = some ⟨1, 2⟩ ∧ 2 < 2 ^ s.lw ∧ s.script = [] ∧ s.DB.wf = true ∧
      dec s.rxq = some ([0x01, 0x02, 0x03, 0x0A], false, [])) ∧
    (∃ s : State, s.rst = false ∧ s.op = .IDLE ∧ s.cmd = some ⟨1, 4⟩ ∧ 4 < 2 ^ s.lw ∧ s.script = [] ∧ s.DB.wf = true ∧
      dec s.rxq = none) :=
  ⟨⟨overflowing, by decide⟩,
   ⟨unfinished, by decide⟩⟩

/-- The frame `[01 02 03 0A]` for a capacity of two, delivered while the call waits and a command is held, and further
edges. -/
def trickling : State :=
  { decoding .LITERAL [0x01] 2 0 with
    cmd := some ⟨0, 3⟩
    script := [.edge, .edge, .agent (.deliver 0x02), .agent (.deliver 0x03), .edge, .agent (.setTxReady false), .edge,
      .agent (.deliver 0x0A), .agent .withdraw, .edge, .edge] }

/-- The boundary at which the third byte has just been dropped, and the one after the end of the call. -/
theorem witness_ConditionsArePrecise :
    trickling.rst = false ∧ trickling.op = .DEC ∧ trickling.d_state = .LITERAL ∧ trickling.d_len = 0 ∧
    trickling.OVF = false ∧ trickling.MAL = false ∧ trickling.DB.wf = true ∧
    (∀ u ∈ trickling.script.take 11, receiveTurn u = true) ∧
    (∀ i b, .agent (.writeDB i b) ∉ trickling.script.take 11) ∧
    (∀ j u, j < 11 → run j trickling = .next u → u.op = .DEC ∨ u.cmd = none) ∧
    (next? (run 7 trickling)).map (fun t => (t.OVF, t.d_len, t.op, t.DB)) =
      some (true, 2, .DEC, [(0, 0x01), (1, 0x02), (2, 0xEE), (3, 0xEE)]) ∧
    (next? (run 11 trickling)).map (fun t => (t.OVF, t.MAL, t.d_state, t.op, t.rxq)) =
      some (true, false, .DONE, .IDLE, []) :=
  ⟨rfl, rfl, rfl, rfl, rfl, rfl, by decide, by decide, by simp [trickling, decoding], boundaries_spec (by decide),
    by decide, by decide⟩

/-- The encoding framer, a decoding one with too small a capacity, and one that gets no byte (P6). -/
theorem witness_RoundTrip :
    (∃ s : State, 1 ≤ 3 ∧ s.rst = false ∧ s.op = .IDLE ∧ s.cmd = some ⟨0, 3⟩ ∧ 3 < 2 ^ s.lw ∧ txReady s = true ∧
      s.script = [] ∧ s.txq = []) ∧
    (∃ s : State, s.rst = false ∧ s.op = .IDLE ∧ s.cmd = some ⟨1, 2⟩ ∧ 2 < 2 ^ s.lw ∧ s.script = [] ∧ s.DB.wf = true) ∧
    (∃ s : State, s.rst = false ∧ s.op = .IDLE ∧ s.cmd = some ⟨1, 4⟩ ∧ 4 < 2 ^ s.lw ∧ s.script = [] ∧ s.rxq = enc []) :=
  ⟨⟨{ presenting 0 3 with PL := pl6 }, by decide⟩,
   ⟨presenting 1 2, by decide⟩,
   ⟨presenting 1 4, by decide⟩⟩

theorem witness_FrameShape :
    ([0x0A, 0x0B] : List Byte) ≠ [] ∧ enc [0x0A, 0x0B] = [0x0B, 0x1A, 0x0B, 0x1B, 0x0A] := by
  decide

theorem witness_FrameLength :
    ([0x0A, 0x41] : List Byte) ≠ [] ∧ (enc [0x0A, 0x41]).length = 4 := by
  decide

theorem witness_DecodingInvertsEncoding :
    ([0x0B] : List Byte) ≠ [] ∧ dec [0x0B, 0x1B, 0x0A, 0x7E] = some ([0x0B], false, [0x7E]) := by
  decide

theorem witness_PlacedInstructionIsNext :
    wellFormed start.lw (.encLit 0x41) = true ∧ start.PL.wf = true ∧
    wellFormed (encoding pl6 3 0).lw .encEsc = true ∧ (encoding pl6 3 0).PL.wf = true := by
  decide

theorem witness_UnselectedInstructionChangesNothing :
    select start ≠ .run .encClose ∧ select (encoding pl6 3 0) ≠ .run (.encLit 0x42) := by
  decide

theorem witness_AcceptedCommandLeavesChannel :
    cmdTransfer (presenting 0 3) = true ∧ clockEdge (presenting 0 3) = .next { start with op := .ENC, e_len := 3 } := by
  and_intros <;> rfl

theorem witness_StopsOutsideTheRules :
    (∃ s : State, s.rst = false ∧ s.op = .DEC ∧ s.d_state = .DONE ∧ rxAvail s = true) ∧
    (∃ s : State, s.rst = false ∧ s.op = .ENC ∧ txReady s = true ∧ s.e_phase = .E_FETCH ∧ s.e_len < s.e_idx) ∧
    (∃ s : State, s.rst = false ∧ s.op = .ENC ∧ txReady s = true ∧ s.e_phase = .E_FETCH ∧ s.e_idx < s.e_len ∧
      2 ^ s.lw ≤ s.e_idx) ∧
    (∃ s : State, s.rst = false ∧ s.op = .IDLE ∧ s.cmd = some ⟨1, 256⟩ ∧ 2 ^ s.lw ≤ 256) :=
  ⟨⟨decoding .DONE [0x41] 4 0, by decide⟩,
   ⟨encoding pl6 3 4, by decide⟩,
   ⟨encoding pl6 300 256, by decide⟩,
   ⟨presenting 1 256, by decide⟩⟩

end Sys2Proof.Tests
end

/-! R24: no call depends on an earlier call. `SameCall` is a simulation: each register update that a step is made of keeps
it, hence each clock edge, each move of another agent and each turn. -/

namespace Sys2Proof.Proofs.EarlierCalls

open Sys2Proof Sys2Proof.Machine Sys2Proof.Safety Sys2Proof.Laws

/-! ### Updates of the environment and of a running call's registers -/

section Updates

variable {s t : State}

theorem sameCall_setScript (h : SameCall s t) (rest : List Turn) :
    SameCall { s with script := rest } { t with script := rest } := by
  simp_all [SameCall]

theorem sameCall_setRxq (h : SameCall s t) (q : List Byte) : SameCall { s with rxq := q } { t with rxq := q } := by
  simp_all [SameCall]

theorem sameCall_writePL (h : SameCall s t) (i : Nat) (b : Byte) :
    SameCall { s with PL := s.PL.write i b } { t with PL := t.PL.write i b } := by
  simp_all [SameCall]

theorem sameCall_writeDB (h : SameCall s t) (i : Nat) (b : Byte) :
    SameCall { s with DB := s.DB.write i b } { t with DB := t.DB.write i b } := by
  simp_all [SameCall]

theorem sameCall_takeCommand (h : SameCall s t) : SameCall (takeCommand s) (takeCommand t) := by
  simp_all [SameCall]

theorem sameCall_txWrite (h : SameCall s t) (b : Byte) : SameCall (txWrite b s) (txWrite b t) := by
  simp_all [SameCall]

theorem sameCall_advanceCursor (h : SameCall s t) : SameCall (advanceCursor s) (advanceCursor t) := by
  simp_all [SameCall]

/-- `e_pend` is written as it comes to be owed, so what an earlier call left in it is gone before it can be read. -/
theorem sameCall_oweEscape (h : SameCall s t) (b : Byte) : SameCall (oweEscape b s) (oweEscape b t) := by
  simp_all [SameCall]

theorem sameCall_escapePaid (h : SameCall s t) : SameCall (escapePaid s) (escapePaid t) := by
  simp_all [SameCall]

theorem sameCall_enterState (h : SameCall s t) (d : DState) : SameCall (enterState d s) (enterState d t) := by
  simp_all [SameCall]

theorem sameCall_countByte (h : SameCall s t) : SameCall (countByte s) (countByte t) := by
  simp_all [SameCall]

theorem sameCall_setMAL (h : SameCall s t) : SameCall (setMAL s) (setMAL t) := by
  simp_all [SameCall]

theorem sameCall_setOVF (h : SameCall s t) : SameCall (setOVF s) (setOVF t) := by
  simp_all [SameCall]

/-! ### Updates that start or end a call -/

/-- ENCODE writes every register its call reads but `e_pend`, which is not owed in `E_FETCH`. -/
theorem sameCall_startEncode (h : SameCall s t) (len : Nat) : SameCall (startEncode len s) (startEncode len t) := by
  simp_all [SameCall]

/-- DECODE writes every register its call reads, once it has cleared the flags too. -/
theorem sameCall_acceptDecode (h : SameCall s t) (cap : Nat) :
    SameCall (clearFlags (startDecode cap s)) (clearFlags (startDecode cap t)) := by
  simp_all [SameCall]

/-- An idle block reads no register. -/
theorem sameCall_endCall (h : SameCall s t) : SameCall (endCall s) (endCall t) := by
  simp_all [SameCall]

theorem sameCall_resetRegisters (h : SameCall s t) : SameCall (resetRegisters s) (resetRegisters t) := by
  simp_all [SameCall]

end Updates

/-! ### Outcomes of two related states -/

/-- The second outcome is a next state if the first is, with `SameCall` between the two. -/
def Follows (r₁ r₂ : Result) : Prop := ∀ t₁, r₁ = .next t₁ → ∃ t₂, r₂ = .next t₂ ∧ SameCall t₁ t₂

section Outcomes

variable {s t : State}

theorem follows_next (h : SameCall s t) : Follows (.next s) (.next t) := by
  rintro _ ⟨⟩
  exact ⟨t, rfl, h⟩

theorem follows_fault (f : Fault) (r : Result) : Follows (.fault f) r := nofun

/-- The guarded store of a decode call reads only registers that this call has written. -/
theorem follows_append (h : SameCall s t) (ho : s.op = .DEC) (v : Byte) : Follows (append v s) (append v t) := by
  have ⟨hlw, _, _, _, _, _, _, _, _, _, _, hdec⟩ := h
  obtain ⟨-, hlen, hcap, -, -⟩ := hdec ho
  rintro s' hs
  rcases append_cases hs with ⟨hroom, hspace, rfl⟩ | ⟨hfull, rfl⟩
  · refine ⟨_, append_store (by omega) (by rw [← hlen, ← hlw]; exact hspace), ?_⟩
    exact hlen ▸ sameCall_countByte (sameCall_writeDB h s.d_len v)
  · exact ⟨_, append_full (by omega), sameCall_setOVF h⟩

/-- Dispatch reads the registers of the unit that `op` names only, so it selects the same step in both. -/
theorem select_eq_of_sameCall (h : SameCall s t) : select s = select t := by
  obtain ⟨hlw, hPL, -, hrx, -, hcmd, htx, hrst, -, hop, henc, hdec⟩ := h
  refine select_congr hrst hlw hop (fun _ => hcmd) (fun ho => ?_) (fun ho _ => ?_) (fun ho => ?_)
  · obtain ⟨-, -, hphase, -⟩ := henc ho
    exact ⟨htx, hphase⟩
  · obtain ⟨hlen, hidx, -, -⟩ := henc ho
    exact ⟨hidx, hlen, fun _ _ _ => by rw [hPL, hidx]⟩
  · obtain ⟨hstate, -⟩ := hdec ho
    exact ⟨by rw [hrx], hstate⟩

/-- Both states take the same step. Only ENC.X2 and the storing decoder steps read a register that dispatch has not read: the
one reads `e_pend` while it is owed, the others `d_len` and `d_cap` while `op` is DEC, and there the states agree. -/
theorem follows_clockEdge (h : SameCall s t) : Follows (clockEdge s) (clockEdge t) := by
  intro s' hs'
  have hsel := select_eq_of_sameCall h
  have heff {i : Instr} (hi : select s = .run i) : clockEdge t = effect i t := clockEdge_selected (hsel ▸ hi)
  have ⟨_, _, _, hrx, _, _, _, hrst, _, _, henc, _⟩ := h
  have hdeq {c : Byte} {q : List Byte} (hq : s.rxq = c :: q) :
      SameCall { s with rxq := q } { t with rxq := t.rxq.tail } := by
    rw [← hrx, hq]; exact sameCall_setRxq h q
  cases edgeStep_of_clockEdge hs' with
  | reset hr => exact ⟨_, clockEdge_rst (hrst ▸ hr), sameCall_resetRegisters h⟩
  | hold _ hi => exact ⟨t, clockEdge_hold (hsel ▸ hi), h⟩
  | encodeZero _ hi => exact ⟨_, heff hi, sameCall_takeCommand h⟩
  | encode len _ hi _ _ _ h0 =>
    refine ⟨_, (heff hi).trans ?_, sameCall_startEncode (sameCall_takeCommand h) len⟩
    simp only [effect, if_neg h0]
  | decode cap _ hi => exact ⟨_, heff hi, sameCall_acceptDecode (sameCall_takeCommand h) cap⟩
  | encX2 _ hi ho _ hp =>
    obtain ⟨-, -, -, hpend⟩ := henc ho
    refine ⟨_, heff hi, sameCall_escapePaid ?_⟩
    rw [← hpend hp]
    exact sameCall_txWrite h s.e_pend
  | encClose _ hi => exact ⟨_, heff hi, sameCall_endCall (sameCall_txWrite h _)⟩
  | encEnd _ hi => exact ⟨_, heff hi, sameCall_advanceCursor (sameCall_oweEscape (sameCall_txWrite h _) _)⟩
  | encEsc _ hi => exact ⟨_, heff hi, sameCall_advanceCursor (sameCall_oweEscape (sameCall_txWrite h _) _)⟩
  | encLit b _ hi => exact ⟨_, heff hi, sameCall_advanceCursor (sameCall_txWrite h b)⟩
  | decEnd q _ hi _ _ hq => exact ⟨_, heff hi, sameCall_endCall (sameCall_enterState (hdeq hq) .DONE)⟩
  | decEsc q _ hi _ _ hq => exact ⟨_, heff hi, sameCall_enterState (hdeq hq) .PENDING_ESCAPE⟩
  | decLit c q _ _ hi ho _ hq _ _ ha =>
    rw [heff hi]
    exact follows_append (hdeq hq) ho c _ ha
  | decXend q _ _ hi ho _ hq ha =>
    rw [heff hi]
    exact follows_append (sameCall_enterState (hdeq hq) .LITERAL) ho _ _ ha
  | decXesc q _ _ hi ho _ hq ha =>
    rw [heff hi]
    exact follows_append (sameCall_enterState (hdeq hq) .LITERAL) ho _ _ ha
  | decXlit c q _ _ hi ho _ hq _ _ ha =>
    rw [heff hi]
    exact follows_append (sameCall_setMAL (sameCall_enterState (hdeq hq) .LITERAL)) ho c _ ha

theorem envMove_writePL (i : Nat) (b : Byte) (s : State) : envMove (.writePL i b) s =
    if i < 2 ^ s.lw then .next { s with PL := s.PL.write i b } else .fault .noSuchIndex := by
  simp only [envMove, plWrite]
  split_ifs <;> rfl

theorem envMove_writeDB (i : Nat) (b : Byte) (s : State) : envMove (.writeDB i b) s =
    if i < 2 ^ s.lw then .next { s with DB := s.DB.write i b } else .fault .noSuchIndex := by
  simp only [envMove, dbWrite]
  split_ifs <;> rfl

/-- A move of another agent reads and writes the environment only. -/
theorem follows_envMove (h : SameCall s t) (m : EnvMove) : Follows (envMove m s) (envMove m t) := by
  have ⟨hlw, _⟩ := h
  cases m with
  | present | withdraw | setRst | deliver | loseReceived | setTxReady | sendOldest =>
    exact follows_next (by simp_all [SameCall])
  | writePL i b =>
    rw [envMove_writePL, envMove_writePL]
    by_cases hi : i < 2 ^ s.lw
    · rw [if_pos hi, if_pos (hlw ▸ hi)]
      exact follows_next (sameCall_writePL h i b)
    · rw [if_neg hi]
      exact follows_fault _ _
  | writeDB i b =>
    rw [envMove_writeDB, envMove_writeDB]
    by_cases hi : i < 2 ^ s.lw
    · rw [if_pos hi, if_pos (hlw ▸ hi)]
      exact follows_next (sameCall_writeDB h i b)
    · rw [if_neg hi]
      exact follows_fault _ _

end Outcomes

/-- Settles O45: a turn is a clock edge or a move of another agent, and each keeps the relation. -/
theorem noCallDependsOnEarlierCall : Obligations.NoCallDependsOnEarlierCall := by
  intro s₁ s₂ t₁ h
  have ⟨_, _, _, _, _, _, _, _, hscript, _, _, _⟩ := h
  cases hs : s₁.script with
  | nil =>
    rw [step_script_nil hs, step_script_nil (hscript ▸ hs)]
    exact follows_clockEdge h t₁
  | cons u rest =>
    cases u with
    | edge =>
      rw [step_script_edge hs, step_script_edge (hscript ▸ hs)]
      exact follows_clockEdge (sameCall_setScript h rest) t₁
    | agent m =>
      rw [step_script_agent hs, step_script_agent (hscript ▸ hs)]
      exact follows_envMove (sameCall_setScript h rest) m t₁

end Sys2Proof.Proofs.EarlierCalls

/-! R53: the shape of a frame. An item is one ordinary byte or an escape sequence; both clauses of the rule go through the
payload item by item. -/

namespace Sys2Proof.Proofs.FrameShape

open Sys2Proof Sys2Proof.Safety Sys2Proof.Laws

/-- The two bytes that the encoder sends after `ESC` (R47). -/
def IsEscaped (y : Byte) : Prop := y = Config.ESC_END ∨ y = Config.ESC_ESC

/-- R6: the escaped bytes are no control bytes. -/
theorem IsEscaped.ne_end {y : Byte} (h : IsEscaped y) : y ≠ Config.END := by
  rcases h with rfl | rfl
  exacts [escEnd_ne_end, escEsc_ne_end]

theorem IsEscaped.ne_esc {y : Byte} (h : IsEscaped y) : y ≠ Config.ESC := by
  rcases h with rfl | rfl <;> decide

/-- An item is an escape sequence, or a byte that is neither control byte. -/
theorem item_cases (b : Byte) :
    (∃ y, IsEscaped y ∧ item b = [Config.ESC, y]) ∨ b ≠ Config.END ∧ b ≠ Config.ESC ∧ item b = [b] := by
  by_cases hend : b = Config.END
  · exact .inl ⟨_, .inl rfl, hend ▸ item_end⟩
  by_cases hesc : b = Config.ESC
  · exact .inl ⟨_, .inr rfl, hesc ▸ item_esc⟩
  exact .inr ⟨hend, hesc, item_other hend hesc⟩

theorem end_notMem_item (b : Byte) : Config.END ∉ item b := by
  rcases item_cases b with ⟨y, hy, hb⟩ | ⟨hend, -, hb⟩
  · simp [hb, hy.ne_end.symm]
  · simp [hb, hend.symm]

theorem end_notMem_flatMap_item (p : List Byte) : Config.END ∉ p.flatMap item := by
  simp [List.mem_flatMap, end_notMem_item]

/-- Every `ESC` of the wire bytes `w` is directly followed by an escaped byte. -/
def EscapesPaired (w : List Byte) : Prop := ∀ u v, w = u ++ Config.ESC :: v → ∃ y ∈ v.head?, IsEscaped y

theorem escapesPaired_nil : EscapesPaired [] := by
  simp [EscapesPaired]

theorem escapesPaired_cons {c : Byte} {w : List Byte} (hc : c = Config.ESC → ∃ y ∈ w.head?, IsEscaped y)
    (hw : EscapesPaired w) : EscapesPaired (c :: w) := by
  intro u v h
  cases u with
  | nil =>
    obtain ⟨rfl, rfl⟩ := List.cons.inj h
    exact hc rfl
  | cons _ u => exact hw u v (List.cons.inj h).2

/-- A whole item in front breaks no pair and leaves no `ESC` open. -/
theorem escapesPaired_item_append (b : Byte) {w : List Byte} (hw : EscapesPaired w) : EscapesPaired (item b ++ w) := by
  rcases item_cases b with ⟨y, hy, hb⟩ | ⟨-, hesc, hb⟩ <;> rw [hb]
  · exact escapesPaired_cons (fun _ => ⟨y, rfl, hy⟩) (escapesPaired_cons (absurd · hy.ne_esc) hw)
  · exact escapesPaired_cons (absurd · hesc) hw

theorem escapesPaired_flatMap_item_append (p : List Byte) {w : List Byte} (hw : EscapesPaired w) :
    EscapesPaired (p.flatMap item ++ w) := by
  induction p with
  | nil => exact hw
  | cons b p ih =>
    rw [List.flatMap_cons, List.append_assoc]
    exact escapesPaired_item_append b ih

theorem escapesPaired_terminator : EscapesPaired [Config.END] :=
  escapesPaired_cons (absurd · end_ne_esc) escapesPaired_nil

/-- Settles O51: the items hold no `END` and keep every `ESC` paired, and the terminator after them is no `ESC`. -/
theorem frameShape : Obligations.FrameShape := by
  intro p hp
  have henc : enc p = p.flatMap item ++ [Config.END] := if_neg hp
  refine ⟨henc, item_end, item_esc, fun _ => item_other, ⟨_, henc, end_notMem_flatMap_item p⟩, fun u v h => ?_⟩
  obtain ⟨y, hv, rfl | rfl⟩ := escapesPaired_flatMap_item_append p escapesPaired_terminator u v (henc ▸ h)
  · exact .inl hv
  · exact .inr hv

end Sys2Proof.Proofs.FrameShape

/-! R57 to R60: the two commands, and dispatch by `op`. A selected step belongs to the unit that `op` names, and
the steps of the encoder and the decoder neither see nor touch the command channel. -/

namespace Sys2Proof.Proofs.Commands

open Sys2Proof Sys2Proof.Machine Sys2Proof.Safety Sys2Proof.Laws

/-! ### The selected step and its unit -/

/-- The step that a presented command selects (R50). -/
def commandStep (c : Command) : Instr := if c.op = 0 then .encode c.arg else .decode c.arg

theorem commandStep_zero (len : Nat) : commandStep ⟨0, len⟩ = .encode len := rfl

theorem commandStep_one (cap : Nat) : commandStep ⟨1, cap⟩ = .decode cap := rfl

theorem encode_commandStep (c : Command) : encode (commandStep c) = (.command, packCommand c) := by
  obtain ⟨op, arg⟩ := c
  rcases (show ∀ b : BitVec 1, b = 0 ∨ b = 1 by decide) op with rfl | rfl <;> rfl

/-- The idle block accepts a presented command that fits its wires. -/
theorem select_commandStep {s : State} {c : Command} (hr : s.rst = false) (ho : s.op = .IDLE) (hc : s.cmd = some c)
    (hfit : c.arg < 2 ^ s.lw) : select s = .run (commandStep c) := by
  rw [select_idle hr ho hc, if_pos hfit, commandStep]

theorem commandStep_unit {lw : Nat} {c : Command} (hfit : c.arg < 2 ^ lw) :
    unitOf (commandStep c) = .IDLE ∧ wellFormed lw (commandStep c) = true := by
  refine ⟨by rw [unitOf, encode_commandStep], ?_⟩
  unfold commandStep
  split <;> exact decide_eq_true hfit

theorem decodePayload_unit (lw : Nat) (b : Byte) :
    unitOf (decodePayload b) = .ENC ∧ wellFormed lw (decodePayload b) = true := by
  unfold decodePayload
  split_ifs with hend hesc
  exacts [⟨rfl, rfl⟩, ⟨rfl, rfl⟩, ⟨rfl, decide_eq_true ⟨hend, hesc⟩⟩]

theorem decodeLiteral_unit (lw : Nat) (c : Byte) :
    unitOf (decodeLiteral c) = .DEC ∧ wellFormed lw (decodeLiteral c) = true := by
  unfold decodeLiteral
  split_ifs with hend hesc
  exacts [⟨rfl, rfl⟩, ⟨rfl, rfl⟩, ⟨rfl, decide_eq_true ⟨hend, hesc⟩⟩]

theorem decodePending_unit (lw : Nat) (c : Byte) :
    unitOf (decodePending c) = .DEC ∧ wellFormed lw (decodePending c) = true := by
  unfold decodePending
  split_ifs with hend hesc
  exacts [⟨rfl, rfl⟩, ⟨rfl, rfl⟩, ⟨rfl, decide_eq_true ⟨hend, hesc⟩⟩]

/-- Dispatch selects a step of the unit that `op` names, and one that the block has. -/
theorem select_run_unit {s : State} {i : Instr} (h : select s = .run i) :
    s.op = unitOf i ∧ wellFormed s.lw i = true := by
  obtain ⟨-, ⟨ho, c, -, hfit, rfl⟩ | ⟨ho, -, -, rfl⟩ | ⟨ho, -, -, -, rfl⟩ | ⟨ho, -, -, -, -, rfl⟩ |
    ⟨ho, c, -, -, ⟨-, rfl⟩ | ⟨-, rfl⟩⟩⟩ := select_run_cases h
  · rw [ho]; exact (commandStep_unit hfit).imp_left Eq.symm
  · exact ⟨ho, rfl⟩
  · exact ⟨ho, rfl⟩
  · rw [ho]; exact (decodePayload_unit _ _).imp_left Eq.symm
  · rw [ho]; exact (decodeLiteral_unit _ _).imp_left Eq.symm
  · rw [ho]; exact (decodePending_unit _ _).imp_left Eq.symm

/-! ### R58, R59: the two commands -/

/-- Settles O3: the command is selected, and its effect asks whether the length is zero. -/
theorem encodeCommandResult : Obligations.EncodeCommandResult := by
  intro s len hr ho hc hfit
  have hsel : select s = .run (.encode len) := select_commandStep hr ho hc hfit
  have hexec := exec_selected hsel
  refine ⟨hsel, fun hzero => ⟨none, ?_⟩, fun hpos => ⟨none, ?_⟩⟩
  · rw [hexec, effect, if_pos hzero]; rfl
  · rw [hexec, effect, if_neg hpos]; rfl

/-- Settles O4: the command is selected, and its effect writes the registers whatever the capacity. -/
theorem decodeCommandResult : Obligations.DecodeCommandResult := by
  intro s cap hr ho hc hfit
  have hsel : select s = .run (.decode cap) := select_commandStep hr ho hc hfit
  exact ⟨hsel, none, exec_selected hsel⟩

/-! ### R60: a command presented to a busy block -/

/-- The state with `c` on the command channel. -/
def withCmd (c : Option Command) (s : State) : State := { s with cmd := c }

/-- A busy block's dispatch does not look at the command channel. -/
theorem select_withCmd {s : State} (c : Option Command) (hbusy : s.op ≠ .IDLE) :
    select (withCmd c s) = select s :=
  select_congr rfl rfl rfl (absurd · hbusy) (fun _ => ⟨rfl, rfl⟩) (fun _ _ => ⟨rfl, rfl, fun _ _ _ => rfl⟩)
    (fun _ => ⟨rfl, rfl⟩)

/-- `append` has no meaning outside the index space (log 9). -/
theorem append_outside {v : Byte} {s : State} (hroom : s.d_len < s.d_cap) (hout : ¬s.d_len < 2 ^ s.lw) :
    append v s = .fault .noSuchIndex := by
  unfold append dbWrite
  rw [if_pos hroom, if_neg hout]

/-- The guarded store does not look at the command channel and keeps it. -/
theorem append_withCmd (v : Byte) (c : Option Command) (s : State) :
    append v (withCmd c s) = mapNext (withCmd c) (append v s) := by
  by_cases hroom : s.d_len < s.d_cap
  · by_cases hspace : s.d_len < 2 ^ s.lw
    · rw [append_store hroom hspace]; exact append_store hroom hspace
    · rw [append_outside hroom hspace]; exact append_outside hroom hspace
  · rw [append_full (Nat.le_of_not_lt hroom)]; exact append_full (Nat.le_of_not_lt hroom)

/-- The effect of an encoder or decoder step neither depends on the command channel nor changes it. -/
theorem effect_withCmd {i : Instr} (hunit : unitOf i ≠ .IDLE) (c : Option Command) (s : State) :
    effect i (withCmd c s) = mapNext (withCmd c) (effect i s) := by
  let t := { s with rxq := s.rxq.tail }
  cases i with
  | encode | decode => exact absurd rfl hunit
  | encX2 | encClose | encEnd | encEsc | encLit | decEnd | decEsc => rfl
  | decLit v => exact append_withCmd v c t
  | decXend => exact append_withCmd Config.END c (enterState .LITERAL t)
  | decXesc => exact append_withCmd Config.ESC c (enterState .LITERAL t)
  | decXlit v => exact append_withCmd v c (setMAL (enterState .LITERAL t))

/-- An edge of a busy block does the same whatever is on the command channel, and leaves it there. -/
theorem clockEdge_withCmd {s : State} (c : Option Command) (hbusy : s.op ≠ .IDLE) :
    clockEdge (withCmd c s) = mapNext (withCmd c) (clockEdge s) := by
  have hsel := select_withCmd c hbusy
  cases hs : select s with
  | run i =>
    obtain ⟨hunit, -⟩ := select_run_unit hs
    rw [clockEdge_selected hs, clockEdge_selected (hsel.trans hs), effect_withCmd (hunit ▸ hbusy)]
  | reset | hold | noRule | badWord => simp only [clockEdge, hsel, hs]; rfl

/-- Settles O5: the edge of a busy block commutes with what is presented, and an idle one accepts the command. -/
theorem commandWhileBusyHasNoEffect : Obligations.CommandWhileBusyHasNoEffect := by
  refine ⟨fun s c hbusy => ⟨beq_false_of_ne hbusy, ?_⟩, fun s c ho hr hc hfit => ?_⟩
  · exact clockEdge_withCmd (s := withCmd none s) c hbusy
  · exact ⟨commandStep c, select_commandStep hr ho hc hfit, encode_commandStep c⟩

/-! ### R57: dispatch -/

/-- The guarded store sends nothing and accepts no command. -/
theorem append_keeps_channels {v : Byte} {s t : State} (h : append v s = .next t) : t.cmd = s.cmd ∧ t.txq = s.txq := by
  rcases append_cases h with ⟨-, -, rfl⟩ | ⟨-, rfl⟩ <;> exact ⟨rfl, rfl⟩

/-- R57: `op` names the one unit whose channel can have a transfer. -/
theorem edgeStep_channels {s t : State} (hr : s.rst = false) (h : EdgeStep s t) :
    (s.op = .IDLE → t.rxq = s.rxq ∧ t.txq = s.txq) ∧ (s.op = .ENC → t.cmd = s.cmd ∧ t.rxq = s.rxq) ∧
    (s.op = .DEC → t.cmd = s.cmd ∧ t.txq = s.txq) := by
  cases h with
  | reset hrst => exact absurd (hr.symm.trans hrst) Bool.false_ne_true
  | hold => exact ⟨fun _ => ⟨rfl, rfl⟩, fun _ => ⟨rfl, rfl⟩, fun _ => ⟨rfl, rfl⟩⟩
  | encodeZero _ _ ho | encode _ _ _ ho | decode _ _ _ ho => simp [ho]
  | encX2 _ _ ho | encClose _ _ ho | encEnd _ _ ho | encEsc _ _ ho | encLit _ _ _ ho => simp [ho]
  | decEnd _ _ _ ho | decEsc _ _ _ ho => simp [ho]
  | decLit _ _ _ _ _ ho _ _ _ _ ha | decXend _ _ _ _ ho _ _ ha | decXesc _ _ _ _ ho _ _ ha
  | decXlit _ _ _ _ _ ho _ _ _ _ ha => simpa [ho] using append_keeps_channels ha

/-- Settles O6: each hold and each accepted command by what dispatch selects, the rest by the unit of the selected step. -/
theorem dispatchByOp : Obligations.DispatchByOp := by
  refine ⟨fun s hr ho hc => ?_, fun s hr ho ht => ?_, fun s hr ho hrx => ?_, fun s c hr ho hc hfit => ?_,
    fun s i hs => ?_, fun s t hr h => ?_⟩
  · exact clockEdge_hold (select_idle_none hr ho hc)
  · exact clockEdge_hold (select_enc_hold hr ho ht)
  · have hq : s.rxq = [] := by simpa [rxAvail] using hrx
    exact clockEdge_hold (select_dec_hold hr ho hq)
  · exact clockEdge_run (select_commandStep hr ho hc hfit)
  · obtain ⟨hr, -⟩ := select_run_cases hs
    exact ⟨hr, select_run_unit hs⟩
  · exact edgeStep_channels hr (edgeStep_of_clockEdge h)

end Sys2Proof.Proofs.Commands

/-! R63 to R70: the encoder. Each result of a step is what dispatch selects together with the selected step's effect; the
frame and the one `TxWrite` follow from a single inversion lemma, `edgeStep_encoder`. -/

namespace Sys2Proof.Proofs.Encoder

open Sys2Proof Sys2Proof.Machine Sys2Proof.Laws

/-! ### Which step a payload byte selects -/

theorem decodePayload_end : decodePayload Config.END = .encEnd := rfl

theorem decodePayload_esc : decodePayload Config.ESC = .encEsc := rfl

theorem decodePayload_other {b : Byte} (hend : b ≠ Config.END) (hesc : b ≠ Config.ESC) :
    decodePayload b = .encLit b := by
  rw [decodePayload, if_neg hend, if_neg hesc]

/-- A ready encoder in E_FETCH takes the step that the payload byte at the cursor decodes to (R49, R63). -/
theorem select_enc_payload {s : State} {b : Byte} (hr : s.rst = false) (ho : s.op = .ENC) (ht : txReady s = true)
    (hp : s.e_phase = .E_FETCH) (hi : s.e_idx < s.e_len) (hb : plRead s s.e_idx = some b) :
    select s = .run (decodePayload b) := by
  obtain ⟨hspace, rfl⟩ := plRead_eq_some.1 hb
  exact select_enc_fetch hr ho ht hp hi hspace

/-! ### R64 to R68: what each step writes -/

/-- Settles O8: a byte other than END and ESC decodes to ENC.LIT, whose effect is the write and the advanced cursor. -/
theorem encLitResult : Obligations.EncLitResult := by
  intro s b hr ho hp hi ht hb hend hesc
  have hsel : select s = .run (.encLit b) :=
    decodePayload_other hend hesc ▸ select_enc_payload hr ho ht hp hi hb
  exact ⟨hsel, exec_selected hsel⟩

/-- Settles O9: the two control bytes decode to ENC.END and ENC.ESC, whose effects latch the second byte. -/
theorem encEndAndEncEscResult : Obligations.EncEndAndEncEscResult := by
  intro s hr ho hp hi ht
  refine ⟨fun hb => ?_, fun hb => ?_⟩
  · have hsel : select s = .run .encEnd := decodePayload_end ▸ select_enc_payload hr ho ht hp hi hb
    exact ⟨hsel, exec_selected hsel⟩
  · have hsel : select s = .run .encEsc := decodePayload_esc ▸ select_enc_payload hr ho ht hp hi hb
    exact ⟨hsel, exec_selected hsel⟩

/-- Settles O10: an owed second byte selects ENC.X2, whatever the cursor. -/
theorem encX2Result : Obligations.EncX2Result := by
  intro s hr ho hp ht
  have hsel := select_enc_x2 hr ho ht hp
  exact ⟨hsel, exec_selected hsel⟩

/-- Settles O11: a cursor at the length selects ENC.CLOSE. -/
theorem encCloseResult : Obligations.EncCloseResult := by
  intro s hr ho hp hi ht
  have hsel := select_enc_close hr ho ht hp hi
  exact ⟨hsel, exec_selected hsel⟩

/-! ### R63, R70: the hold, the one `TxWrite`, and the frame -/

/-- `t` is `s` after an encoder step: one byte more in `txq`, and nothing else written but `e_idx`, `e_pend`, `e_phase`
and `op`. -/
def WroteOneByte (s t : State) : Prop :=
  ∃ (b : Byte) (idx : Nat) (pend : Byte) (phase : EPhase) (o : Op),
    t = { s with txq := s.txq ++ [b], e_idx := idx, e_pend := pend, e_phase := phase, op := o }

/-- Everything an edge out of reset can do during an encode call: hold exactly while the transport is not ready,
otherwise write one byte. -/
theorem edgeStep_encoder {s t : State} (hr : s.rst = false) (ho : s.op = .ENC) (h : EdgeStep s t) :
    (txReady s = false ∧ t = s) ∨ (txReady s = true ∧ WroteOneByte s t) := by
  cases h with
  | reset hrst => exact absurd (hr.symm.trans hrst) Bool.false_ne_true
  | hold _ hs =>
    obtain ⟨-, ⟨hidle, -⟩ | ⟨-, ht⟩ | ⟨hdec, -⟩⟩ := select_hold_cases hs
    · cases ho.symm.trans hidle
    · exact .inl ⟨ht, rfl⟩
    · cases ho.symm.trans hdec
  | encX2 _ _ _ ht | encClose _ _ _ ht | encEnd _ _ _ ht | encEsc _ _ _ ht | encLit _ _ _ _ ht =>
    exact .inr ⟨ht, _, _, _, _, _, rfl⟩
  | encodeZero _ _ hop | encode _ _ _ hop | decode _ _ _ hop | decEnd _ _ _ hop | decEsc _ _ _ hop
  | decLit _ _ _ _ _ hop | decXend _ _ _ _ hop | decXesc _ _ _ _ hop | decXlit _ _ _ _ _ hop =>
    cases ho.symm.trans hop

/-- Settles O12: the selection in R63's order, and the byte written by the inversion of the edge. -/
theorem encoderStepSelection : Obligations.EncoderStepSelection := by
  intro s hr ho
  refine ⟨fun ht => clockEdge_hold (select_enc_hold hr ho ht), fun ht => ⟨fun hp => ?_, fun hp hi => ?_,
    fun hp hi b hb => ?_, fun t h => ?_⟩⟩
  · exact select_enc_x2 hr ho ht hp
  · exact select_enc_close hr ho ht hp hi
  · exact select_enc_payload hr ho ht hp hi hb
  · obtain ⟨hhold, -⟩ | ⟨-, b, _, _, _, _, rfl⟩ := edgeStep_encoder hr ho (edgeStep_of_clockEdge h)
    · exact absurd (hhold.symm.trans ht) Bool.false_ne_true
    · exact ⟨b, rfl⟩

/-- Settles O13: neither the hold nor the writes of an encoder step reach these registers and queues. -/
theorem encoderTouchesNoDecoderState : Obligations.EncoderTouchesNoDecoderState := by
  intro s t hr ho h
  obtain ⟨-, rfl⟩ | ⟨-, _, _, _, _, _, rfl⟩ := edgeStep_encoder hr ho (edgeStep_of_clockEdge h) <;>
    exact ⟨rfl, rfl, rfl, rfl, rfl, rfl, rfl, rfl⟩

end Sys2Proof.Proofs.Encoder

/-! R71 to R78: the decoder. Each result of a step is what dispatch selects together with the selected step's effect; the
four storing steps share what the guarded store does, `append_result`. -/

namespace Sys2Proof.Proofs.Decoder

open Sys2Proof Sys2Proof.Machine Sys2Proof.Safety Sys2Proof.Laws

/-! ### Which step a wire byte selects -/

theorem decodeLiteral_end : decodeLiteral Config.END = .decEnd := rfl

theorem decodeLiteral_esc : decodeLiteral Config.ESC = .decEsc := rfl

theorem decodeLiteral_other {c : Byte} (hend : c ≠ Config.END) (hesc : c ≠ Config.ESC) :
    decodeLiteral c = .decLit c := by
  rw [decodeLiteral, if_neg hend, if_neg hesc]

theorem decodePending_escEnd : decodePending Config.ESC_END = .decXend := rfl

theorem decodePending_escEsc : decodePending Config.ESC_ESC = .decXesc := rfl

theorem decodePending_other {c : Byte} (hend : c ≠ Config.ESC_END) (hesc : c ≠ Config.ESC_ESC) :
    decodePending c = .decXlit c := by
  rw [decodePending, if_neg hend, if_neg hesc]

/-! ### R73 to R78: what each step writes -/

/-- R72: the guarded store on a state in range, with a buffer in canonical form. -/
theorem append_result {s : State} (v : Byte) (hrange : InRange s) (hwf : s.DB.wf = true) :
    (s.d_len < s.d_cap → ∃ m, OneByteWritten s.DB m s.d_len v ∧
      append v s = .next { s with DB := m, d_len := s.d_len + 1 }) ∧
    (s.d_cap ≤ s.d_len → append v s = .next { s with OVF := true }) := by
  obtain ⟨-, -, -, hlen, -⟩ := hrange
  refine ⟨fun hroom => ⟨s.DB.write s.d_len v, ⟨?_, ?_⟩, append_store hroom hlen⟩, fun hfull => append_full hfull⟩
  · exact read_write_same hwf s.d_len v
  · exact fun b hb => read_write_other s.DB v hb

/-- Settles O18: END decodes to DEC.END, whose effect looks at no capacity. -/
theorem decEndResult : Obligations.DecEndResult := by
  intro s q hr ho hd hq
  have hsel : select s = .run .decEnd := decodeLiteral_end ▸ select_dec_literal hr ho hq hd
  refine ⟨hsel, ?_⟩
  rw [exec_selected hsel, effect, hq]; rfl

/-- Settles O19: ESC decodes to DEC.ESC, whose effect looks at no capacity. -/
theorem decEscResult : Obligations.DecEscResult := by
  intro s q hr ho hd hq
  have hsel : select s = .run .decEsc := decodeLiteral_esc ▸ select_dec_literal hr ho hq hd
  refine ⟨hsel, ?_⟩
  rw [exec_selected hsel, effect, hq]; rfl

/-- Settles O20: any other byte decodes to DEC.LIT, which hands the byte itself to the guarded store. -/
theorem decLitResult : Obligations.DecLitResult := by
  intro s c q hrange hwf hr ho hd hq hend hesc
  have hsel : select s = .run (.decLit c) := decodeLiteral_other hend hesc ▸ select_dec_literal hr ho hq hd
  refine ⟨hsel, ?_⟩
  rw [exec_selected hsel, effect, hq]
  exact append_result (s := { s with rxq := q }) c hrange hwf

/-- Settles O21: the two escaped bytes decode to DEC.XEND and DEC.XESC, which store the bytes they stand for. -/
theorem decXendAndDecXescResult : Obligations.DecXendAndDecXescResult := by
  intro s q hrange hwf hr ho hd
  refine ⟨fun hq => ?_, fun hq => ?_⟩
  · have hsel : select s = .run .decXend := decodePending_escEnd ▸ select_dec_pending hr ho hq hd
    refine ⟨hsel, ?_⟩
    rw [exec_selected hsel, effect, hq]
    exact append_result (s := enterState .LITERAL { s with rxq := q }) Config.END hrange hwf
  · have hsel : select s = .run .decXesc := decodePending_escEsc ▸ select_dec_pending hr ho hq hd
    refine ⟨hsel, ?_⟩
    rw [exec_selected hsel, effect, hq]
    exact append_result (s := enterState .LITERAL { s with rxq := q }) Config.ESC hrange hwf

/-- Settles O22: any other byte after ESC decodes to DEC.XLIT, which sets MAL before the guarded store. -/
theorem decXlitResult : Obligations.DecXlitResult := by
  intro s c q hrange hwf hr ho hd hq hend hesc
  have hsel : select s = .run (.decXlit c) := decodePending_other hend hesc ▸ select_dec_pending hr ho hq hd
  refine ⟨hsel, ?_⟩
  rw [exec_selected hsel, effect, hq]
  exact append_result (s := setMAL (enterState .LITERAL { s with rxq := q })) c hrange hwf

/-! ### R71: the hold and the one byte read -/

/-- The guarded store reads no wire byte. -/
theorem append_keeps_rxq {v : Byte} {s t : State} (h : append v s = .next t) : t.rxq = s.rxq := by
  rcases append_cases h with ⟨-, -, rfl⟩ | ⟨-, rfl⟩ <;> rfl

/-- Everything an edge out of reset does to the received bytes during a decode call: it holds exactly while none waits,
otherwise it reads the oldest. -/
theorem edgeStep_decoder {s t : State} (hr : s.rst = false) (ho : s.op = .DEC) (h : EdgeStep s t) :
    (s.rxq = [] ∧ t = s) ∨ ∃ c, s.rxq = c :: t.rxq := by
  cases h with
  | reset hrst => exact absurd (hr.symm.trans hrst) Bool.false_ne_true
  | hold _ hs =>
    obtain ⟨-, ⟨hidle, -⟩ | ⟨henc, -⟩ | ⟨-, hq⟩⟩ := select_hold_cases hs
    · cases ho.symm.trans hidle
    · cases ho.symm.trans henc
    · exact .inl ⟨hq, rfl⟩
  | decEnd _ _ _ _ _ hq | decEsc _ _ _ _ _ hq => exact .inr ⟨_, hq⟩
  | decLit _ _ _ _ _ _ _ hq _ _ ha | decXend _ _ _ _ _ _ hq ha | decXesc _ _ _ _ _ _ hq ha
  | decXlit _ _ _ _ _ _ _ hq _ _ ha => exact .inr ⟨_, hq.trans (congrArg (_ :: ·) (append_keeps_rxq ha).symm)⟩
  | encodeZero _ _ hop | encode _ _ _ hop | decode _ _ _ hop | encX2 _ _ hop | encClose _ _ hop | encEnd _ _ hop
  | encEsc _ _ hop | encLit _ _ _ hop => cases ho.symm.trans hop

/-- Settles O23: the selection by `d_state` and the head of `rxq`, and the byte read by the inversion of the edge. -/
theorem decoderStepSelection : Obligations.DecoderStepSelection := by
  intro s hr ho
  refine ⟨fun hrx => ?_, fun c q hq hd => ?_, fun c q hq hd => ?_, fun c q t hq h => ?_⟩
  · have hempty : s.rxq = [] := by simpa [rxAvail] using hrx
    exact clockEdge_hold (select_dec_hold hr ho hempty)
  · exact select_dec_literal hr ho hq hd
  · exact select_dec_pending hr ho hq hd
  · obtain ⟨hempty, -⟩ | ⟨d, hread⟩ := edgeStep_decoder hr ho (edgeStep_of_clockEdge h)
    · cases hq.symm.trans hempty
    · exact (List.cons.inj (hread.symm.trans hq)).2

end Sys2Proof.Proofs.Decoder

/-! R79, R48: the reference functions on a stream of wire bytes. A stream falls into tokens, one or two wire bytes that stand
for one payload byte; what `dec` answers, what a byte-by-byte reading shows and what `enc` produces are compared token by
token. -/

namespace Sys2Proof.Proofs.Wire

open Sys2Proof Sys2Proof.Safety Sys2Proof.Laws

/-! ### Tokens -/

/-- The wire bytes `w` stand for the payload byte `b`, as a malformed escape if `e` (the clauses of R79). -/
inductive Token : List Byte → Byte → Bool → Prop
  | lit {c : Byte} (hend : c ≠ Config.END) (hesc : c ≠ Config.ESC) : Token [c] c false
  | xend : Token [Config.ESC, Config.ESC_END] Config.END false
  | xesc : Token [Config.ESC, Config.ESC_ESC] Config.ESC false
  | xlit {y : Byte} (hend : y ≠ Config.ESC_END) (hesc : y ≠ Config.ESC_ESC) : Token [Config.ESC, y] y true

/-- What the encoder sends for one payload byte is a token of it, and no malformed one. -/
theorem token_item (b : Byte) : Token (item b) b false := by
  by_cases hend : b = Config.END
  · subst hend; exact .xend
  by_cases hesc : b = Config.ESC
  · subst hesc; exact .xesc
  rw [item_other hend hesc]
  exact .lit hend hesc

/-- `ESC` and any byte after it are a token. -/
theorem token_escape (y : Byte) : ∃ b e, Token [Config.ESC, y] b e := by
  by_cases hend : y = Config.ESC_END
  · subst hend; exact ⟨_, _, .xend⟩
  by_cases hesc : y = Config.ESC_ESC
  · subst hesc; exact ⟨_, _, .xesc⟩
  exact ⟨_, _, .xlit hend hesc⟩

/-- Induction over a stream: it is empty, a lone `ESC`, begins with the terminator, or begins with a token. -/
theorem stream_induction {P : List Byte → Prop} (nil : P []) (openEscape : P [Config.ESC])
    (terminator : ∀ rest, P (Config.END :: rest))
    (token : ∀ w b e more, Token w b e → P more → P (w ++ more)) : ∀ q, P q
  | [] => nil
  | [c] => by
    by_cases hend : c = Config.END
    · subst hend; exact terminator []
    by_cases hesc : c = Config.ESC
    · subst hesc; exact openEscape
    exact token [c] c false [] (.lit hend hesc) nil
  | c :: y :: more => by
    by_cases hend : c = Config.END
    · subst hend; exact terminator (y :: more)
    by_cases hesc : c = Config.ESC
    · subst hesc
      obtain ⟨b, e, hw⟩ := token_escape y
      exact token [Config.ESC, y] b e more hw (stream_induction nil openEscape terminator token more)
    exact token [c] c false (y :: more) (.lit hend hesc) (stream_induction nil openEscape terminator token (y :: more))

/-- The decoding function gives a token's byte and notes whether it was malformed. -/
theorem dec_token {w : List Byte} {b : Byte} {e : Bool} (h : Token w b e) (more : List Byte) :
    dec (w ++ more) = (dec more).map fun r => (b :: r.1, e || r.2.1, r.2.2) := by
  cases h with
  | lit hend hesc => exact dec_other hend hesc more
  | xend => exact dec_esc_end more
  | xesc => exact dec_esc_esc more
  | xlit hend hesc => exact dec_esc_other hend hesc more

/-- R48: decoding undoes encoding item by item, whatever follows the frame. -/
theorem dec_items (p rest : List Byte) : dec (p.flatMap item ++ Config.END :: rest) = some (p, false, rest) := by
  induction p with
  | nil => exact dec_end rest
  | cons b p ih => rw [List.flatMap_cons, List.append_assoc, dec_token (token_item b), ih]; rfl

/-- The frame of a non-empty payload decodes to that payload (laws L-4, L-7). -/
theorem dec_enc_append {p : List Byte} (hp : p ≠ []) (rest : List Byte) :
    dec (enc p ++ rest) = some (p, false, rest) := by
  rw [enc, if_neg hp, List.append_assoc]
  exact dec_items p rest

/-! ### Reading byte by byte -/

/-- A reading between two tokens: `p` read, and whether a malformed escape was among it. -/
def between (p : List Byte) (m : Bool) : Reading := ⟨p, false, m, false⟩

theorem read_other {c : Byte} (hend : c ≠ Config.END) (hesc : c ≠ Config.ESC) (p : List Byte) (m : Bool) :
    (⟨p, false, m, false⟩ : Reading).read c = between (p ++ [c]) m := by
  simp [between, Reading.read, hend, hesc]

theorem read_pending_other {c : Byte} (hend : c ≠ Config.ESC_END) (hesc : c ≠ Config.ESC_ESC) (p : List Byte)
    (m : Bool) : (⟨p, true, m, false⟩ : Reading).read c = between (p ++ [c]) true := by
  simp [between, Reading.read, hend, hesc]

/-- Reading a token appends its byte. -/
theorem foldl_read_token {w : List Byte} {b : Byte} {e : Bool} (h : Token w b e) (p : List Byte) (m : Bool) :
    w.foldl Reading.read (between p m) = between (p ++ [b]) (m || e) := by
  cases h with
  | lit hend hesc => rw [Bool.or_false]; exact read_other hend hesc p m
  | xend => rw [Bool.or_false]; rfl
  | xesc => rw [Bool.or_false]; rfl
  | xlit hend hesc => rw [Bool.or_true]; exact read_pending_other hend hesc p m

/-- After the terminator nothing more is read (R45). -/
theorem foldl_read_of_ended {r : Reading} (h : r.ended = true) (w : List Byte) : w.foldl Reading.read r = r := by
  induction w with
  | nil => rfl
  | cons c w ih => rwa [List.foldl_cons, show r.read c = r from if_pos h]

/-- A reading that has not ended had not ended at any earlier byte. -/
theorem foldl_read_take_not_ended {r : Reading} {w : List Byte} (h : (w.foldl Reading.read r).ended = false) (j : Nat) :
    ((w.take j).foldl Reading.read r).ended = false := by
  rw [← List.take_append_drop j w, List.foldl_append] at h
  by_contra hended
  have hended : ((w.take j).foldl Reading.read r).ended = true := by simpa using hended
  rw [foldl_read_of_ended hended, hended] at h
  cases h

/-- A stream that holds a whole frame: its bytes before the terminator are read as the payload that `dec` answers. -/
theorem frame_of_dec_some {q p rest : List Byte} {m : Bool} (h : dec q = some (p, m, rest)) :
    ∃ body, q = body ++ Config.END :: rest ∧
      ∀ p₀ m₀, body.foldl Reading.read (between p₀ m₀) = between (p₀ ++ p) (m₀ || m) := by
  induction q using stream_induction generalizing p m with
  | nil | openEscape => cases h
  | terminator r =>
    rw [dec_end] at h
    cases h
    exact ⟨[], rfl, by simp⟩
  | token w b e more hw ih =>
    rw [dec_token hw, Option.map_eq_some_iff] at h
    obtain ⟨⟨p', m', rest'⟩, hmore, heq⟩ := h
    cases heq
    obtain ⟨body, rfl, hbody⟩ := ih hmore
    refine ⟨w ++ body, by rw [List.append_assoc], fun p₀ m₀ => ?_⟩
    rw [List.foldl_append, foldl_read_token hw, hbody]
    simp [Bool.or_assoc]

/-- Where the stream holds no whole frame, reading all of it meets no terminator. -/
theorem not_ended_of_dec_none {q : List Byte} (h : dec q = none) (p₀ : List Byte) (m₀ : Bool) :
    (q.foldl Reading.read (between p₀ m₀)).ended = false := by
  induction q using stream_induction generalizing p₀ m₀ with
  | nil | openEscape => rfl
  | terminator r => cases (dec_end r).symm.trans h
  | token w b e more hw ih =>
    rw [dec_token hw, Option.map_eq_none_iff] at h
    rw [List.foldl_append, foldl_read_token hw]
    exact ih h _ _

end Sys2Proof.Proofs.Wire

/-! R79: a whole decode call. The state after any number of wire bytes is written down as a function of what has been read
(`afterReading`), a step extends the reading by one byte, and `dec` says where the reading ends. -/

namespace Sys2Proof.Proofs.DecodeCall

open Sys2Proof Sys2Proof.Machine Sys2Proof.Safety Sys2Proof.Laws Sys2Proof.Proofs.Decoder Sys2Proof.Proofs.Wire

/-! ### The destination buffer filled from index 0 -/

/-- The buffer `m` after a write of each byte of `p` at its own position. -/
def fill (m : Mem) (p : List Byte) : Mem := p.zipIdx.foldl (fun m c => m.write c.2 c.1) m

theorem fill_nil (m : Mem) : fill m [] = m := rfl

/-- One byte more is one write at the next index. -/
theorem fill_concat (m : Mem) (p : List Byte) (b : Byte) : fill m (p ++ [b]) = (fill m p).write p.length b := by
  simp [fill, List.zipIdx_append]

theorem fill_wf {m : Mem} (hm : m.wf = true) (p : List Byte) : (fill m p).wf = true := by
  induction p using List.reverseRecOn with
  | nil => exact hm
  | append_singleton p b ih => rw [fill_concat]; exact write_wf ih p.length b

/-- Beyond the filled indices nothing changes. -/
theorem read_fill_of_le (m : Mem) {p : List Byte} {i : Nat} (h : p.length ≤ i) : (fill m p).read i = m.read i := by
  induction p using List.reverseRecOn with
  | nil => rfl
  | append_singleton p b ih =>
    rw [List.length_append, List.length_singleton] at h
    rw [fill_concat, read_write_other _ b (by omega), ih (by omega)]

/-- At the filled indices stand the bytes of `p`. -/
theorem read_fill_of_lt {m : Mem} (hm : m.wf = true) {p : List Byte} {i : Nat} (h : i < p.length) :
    p[i]? = some ((fill m p).read i) := by
  induction p using List.reverseRecOn with
  | nil => exact absurd h (Nat.not_lt_zero i)
  | append_singleton p b ih =>
    rw [List.length_append, List.length_singleton] at h
    rw [fill_concat]
    rcases Nat.lt_or_eq_of_le (Nat.le_of_lt_succ h) with hlt | rfl
    · rw [List.getElem?_append_left hlt, ih hlt, read_write_other _ b (by omega)]
    · rw [List.getElem?_concat_length, read_write_same (fill_wf hm p)]

/-! ### The state after a reading -/

/-- The call that stands at `s` after the wire bytes that give the reading `r`, with `q` still to be read. -/
def afterReading (r : Reading) (q : List Byte) (s : State) : State :=
  { s with
    rxq := q
    DB := fill s.DB (r.payload.take s.d_cap)
    d_len := min r.payload.length s.d_cap
    OVF := decide (s.d_cap < r.payload.length)
    MAL := r.malformed
    d_state := if r.ended then .DONE else if r.pending then .PENDING_ESCAPE else .LITERAL
    op := if r.ended then .IDLE else .DEC }

theorem shows_afterReading (r : Reading) (q : List Byte) (s : State) : Shows r (afterReading r q s) :=
  ⟨rfl, rfl, rfl, rfl, rfl⟩

/-- R79: the count is that of the bytes which fit, the buffer holds exactly them, and the rest of it is what it was. -/
theorem contents_afterReading {s : State} (hwf : s.DB.wf = true) (r : Reading) (q : List Byte) :
    let t := afterReading r q s
    (∀ i, i < t.d_len → r.payload[i]? = some (t.DB.read i)) ∧ ∀ i, t.d_len ≤ i → t.DB.read i = s.DB.read i := by
  have hlen : (afterReading r q s).d_len = (r.payload.take s.d_cap).length := by
    rw [List.length_take, Nat.min_comm]; rfl
  refine ⟨fun i hi => ?_, fun i hi => read_fill_of_le s.DB (hlen ▸ hi)⟩
  have hcap : i < s.d_cap := hi.trans_le (Nat.min_le_right ..)
  rw [← List.getElem?_take_of_lt hcap]
  exact read_fill_of_lt hwf (hlen ▸ hi)

/-- The guarded store extends the payload of a reading between two tokens, stored or dropped. -/
theorem append_afterReading {s : State} (hcap : s.d_cap < 2 ^ s.lw) (v : Byte) (p : List Byte) (m : Bool)
    (q : List Byte) :
    append v (afterReading (between p m) q s) = .next (afterReading (between (p ++ [v]) m) q s) := by
  rcases Nat.lt_or_ge p.length s.d_cap with hroom | hfull
  · have hlen : (afterReading (between p m) q s).d_len = p.length := Nat.min_eq_left hroom.le
    rw [append_store (hlen ▸ hroom) (hlen ▸ hroom.trans hcap), hlen]
    have htake : (p ++ [v]).take s.d_cap = p ++ [v] := List.take_of_length_le (by simpa using hroom)
    simp [afterReading, between, htake, fill_concat, List.take_of_length_le hroom.le, hroom.le, Nat.succ_le_of_lt hroom,
      hroom.not_ge, Nat.lt_asymm hroom]
  · have hlen : (afterReading (between p m) q s).d_len = s.d_cap := Nat.min_eq_right hfull
    rw [append_full (Nat.le_of_eq hlen.symm)]
    have hfull' : s.d_cap ≤ p.length + 1 := hfull.trans (Nat.le_succ _)
    simp [afterReading, between, setOVF, List.take_append_of_le_length hfull, hfull, hfull', Nat.lt_succ_of_le hfull]

section Call

variable {s : State} (hr : s.rst = false) (hscript : s.script = [])

include hr hscript

/-- R82: with every byte read and the frame not ended, the call waits for ever. -/
theorem run_afterReading_nil {r : Reading} (hended : r.ended = false) (k : Nat) :
    run k (afterReading r [] s) = .next (afterReading r [] s) := by
  have hhold : step (afterReading r [] s) = .next (afterReading r [] s) := by
    rw [step_script_nil (s := afterReading r [] s) hscript]
    exact clockEdge_hold (select_dec_hold hr (by simp [afterReading, hended]) rfl)
  induction k with
  | zero => rfl
  | succ k ih => rw [run_succ hhold, ih]

variable (hcap : s.d_cap < 2 ^ s.lw)

include hcap

/-- R71: one step reads one byte. -/
theorem step_afterReading {r : Reading} (hended : r.ended = false) (c : Byte) (q : List Byte) :
    step (afterReading r (c :: q) s) = .next (afterReading (r.read c) q s) := by
  rw [step_script_nil (s := afterReading r (c :: q) s) hscript]
  obtain ⟨p, pending, m, ended⟩ := r
  subst hended
  cases pending with
  | false =>
    have hsel : select (afterReading (between p m) (c :: q) s) = .run (decodeLiteral c) :=
      select_dec_literal hr rfl rfl rfl
    refine (clockEdge_selected hsel).trans ?_
    by_cases hend : c = Config.END
    · subst hend; rfl
    by_cases hesc : c = Config.ESC
    · subst hesc; rfl
    rw [decodeLiteral_other hend hesc, read_other hend hesc]
    exact append_afterReading hcap c p m q
  | true =>
    have hsel : select (afterReading ⟨p, true, m, false⟩ (c :: q) s) = .run (decodePending c) :=
      select_dec_pending hr rfl rfl rfl
    refine (clockEdge_selected hsel).trans ?_
    by_cases hend : c = Config.ESC_END
    · subst hend; exact append_afterReading hcap Config.END p m q
    by_cases hesc : c = Config.ESC_ESC
    · subst hesc; exact append_afterReading hcap Config.ESC p m q
    rw [decodePending_other hend hesc, read_pending_other hend hesc]
    exact append_afterReading hcap c p true q

/-- Bytes among which the frame does not end are read one a step. -/
theorem run_afterReading {r : Reading} {w : List Byte} (h : (w.foldl Reading.read r).ended = false) (q : List Byte) :
    run w.length (afterReading r (w ++ q) s) = .next (afterReading (w.foldl Reading.read r) q s) := by
  induction w generalizing r with
  | nil => rfl
  | cons c w ih =>
    have hended : r.ended = false := foldl_read_take_not_ended h 0
    rw [List.length_cons, List.cons_append, run_succ (step_afterReading hr hscript hcap hended c (w ++ q)), ih h]
    rfl

/-- At every boundary of such a run the call is in progress. -/
theorem run_afterReading_busy {r : Reading} {w : List Byte} (h : (w.foldl Reading.read r).ended = false) (q : List Byte)
    {j : Nat} (hj : j ≤ w.length) : ∃ u, run j (afterReading r (w ++ q) s) = .next u ∧ u.op = .DEC := by
  have hnot := foldl_read_take_not_ended h j
  have hrun := run_afterReading hr hscript hcap hnot (w.drop j ++ q)
  rw [List.length_take_of_le hj, ← List.append_assoc, List.take_append_drop] at hrun
  exact ⟨_, hrun, by simp [afterReading, hnot]⟩

/-- R79: the whole frame at the head of the stream is read, in one step a byte. -/
theorem run_frame {body p : List Byte} {m : Bool} (h : body.foldl Reading.read .start = between p m)
    (rest : List Byte) :
    run (body ++ [Config.END]).length (afterReading .start (body ++ Config.END :: rest) s) =
      .next (afterReading ⟨p, false, m, true⟩ rest s) := by
  have hnot : (body.foldl Reading.read .start).ended = false := by rw [h]; rfl
  have hbody := run_afterReading hr hscript hcap hnot (Config.END :: rest)
  rw [List.length_append, run_add hbody, h]
  exact run_succ (step_afterReading hr hscript hcap rfl Config.END rest) 0

/-- R79: a stream without a whole frame is read to its end, and the call waits there. -/
theorem run_without_frame {q : List Byte} (h : dec q = none) (k : Nat) :
    ∃ t, run k (afterReading .start q s) = .next t ∧ t.op = .DEC := by
  have hnot : (q.foldl Reading.read .start).ended = false := not_ended_of_dec_none h [] false
  rw [← List.append_nil q]
  rcases Nat.le_total k q.length with hk | hk
  · exact run_afterReading_busy hr hscript hcap hnot [] hk
  · obtain ⟨i, rfl⟩ := Nat.exists_eq_add_of_le hk
    rw [run_add (run_afterReading hr hscript hcap hnot []), run_afterReading_nil hr hscript hnot]
    exact ⟨_, rfl, if_neg (Bool.eq_false_iff.1 hnot)⟩

end Call

/-! ### The call -/

/-- The state in which the first byte of the call is awaited (R59). -/
def accepted (cap : Nat) (s : State) : State := clearFlags (startDecode cap (takeCommand s))

theorem afterReading_start {cap : Nat} (s : State) : afterReading .start s.rxq (accepted cap s) = accepted cap s := by
  simp [afterReading, Reading.start, accepted, fill_nil, clearFlags, startDecode]

/-- The first step of the call accepts the command; the others read. -/
theorem run_decode_call {s : State} {cap : Nat} (hr : s.rst = false) (ho : s.op = .IDLE) (hc : s.cmd = some ⟨1, cap⟩)
    (hfit : cap < 2 ^ s.lw) (hscript : s.script = []) (k : Nat) :
    run (1 + k) s = run k (afterReading .start s.rxq (accepted cap s)) := by
  have haccept : step s = .next (accepted cap s) :=
    (step_script_nil hscript).trans (clockEdge_selected (Commands.select_commandStep hr ho hc hfit))
  rw [afterReading_start, Nat.add_comm, run_succ haccept]

/-- Settles O48: with a whole frame the call reads its body and the terminator, and the result is what the reading shows;
without one it reads all bytes there are and then waits. -/
theorem decodeCallResult : Obligations.DecodeCallResult := by
  intro s cap hr ho hc hfit hscript hwf
  have hcall := run_decode_call hr ho hc hfit hscript
  refine ⟨fun p m rest hdec => ?_, fun hdec k => ?_⟩
  · obtain ⟨body, hq, hbody⟩ := frame_of_dec_some hdec
    rw [hq] at hcall ⊢
    have hread : body.foldl Reading.read .start = between p m := hbody [] false
    have hnot : (body.foldl Reading.read .start).ended = false := by rw [hread]; rfl
    let last := afterReading ⟨p, false, m, true⟩ rest (accepted cap s)
    obtain ⟨hlen, hovf, hmal, hstate, hop⟩ : Shows ⟨p, false, m, true⟩ last := shows_afterReading ..
    obtain ⟨hstored, hkept⟩ := contents_afterReading (s := accepted cap s) hwf ⟨p, false, m, true⟩ rest
    refine ⟨body ++ [Config.END], last, by simp, ?_, hop, hstate, rfl, hlen, hovf, hmal, hstored, hkept, rfl, rfl,
      fun j hpos hj => ?_⟩
    · rw [hcall]
      exact run_frame (s := accepted cap s) hr hscript hfit hread rest
    · obtain ⟨k, rfl⟩ := Nat.exists_eq_add_of_le hpos
      rw [List.length_append, List.length_singleton] at hj
      rw [hcall]
      exact run_afterReading_busy (s := accepted cap s) hr hscript hfit hnot _ (by omega)
  · rw [hcall]
    exact run_without_frame (s := accepted cap s) hr hscript hfit hdec k

/-- R82: a call that no byte reaches shows what it showed when it was accepted. -/
theorem run_without_bytes {s : State} {cap : Nat} (hr : s.rst = false) (ho : s.op = .IDLE)
    (hc : s.cmd = some ⟨1, cap⟩) (hfit : cap < 2 ^ s.lw) (hscript : s.script = []) (hq : s.rxq = []) (k : Nat) :
    run (1 + k) s = .next (accepted cap s) := by
  rw [run_decode_call hr ho hc hfit hscript, hq, run_afterReading_nil (s := accepted cap s) hr hscript rfl, ← hq,
    afterReading_start]

end Sys2Proof.Proofs.DecodeCall

/-! R81: the round trip. The encoder's run goes payload byte by payload byte (`run_items`), its output is a frame, and the
decode call on that frame is R79's. -/

namespace Sys2Proof.Proofs.RoundTrip

open Sys2Proof Sys2Proof.Machine Sys2Proof.Safety Sys2Proof.Laws Sys2Proof.Proofs.Encoder Sys2Proof.Proofs.Wire
  Sys2Proof.Proofs.DecodeCall

/-! ### What an encode call sends -/

/-- The encode call that stands at `s`, between two payload bytes: the cursor, the last escape's second byte and the bytes
sent. -/
def atCursor (s : State) (i : Nat) (pend : Byte) (out : List Byte) : State :=
  { s with e_idx := i, e_pend := pend, txq := out }

section Call

variable {s : State} (hr : s.rst = false) (ho : s.op = .ENC) (hp : s.e_phase = .E_FETCH) (ht : s.tx_ready = true)
  (hscript : s.script = []) (hlen : s.e_len < 2 ^ s.lw)

include hr ho hp ht hscript

/-- R66, R67: the second byte of an escape sequence follows in the next step and gives the phase back. -/
theorem run_escape {i : Nat} {pend : Byte} {out : List Byte} {y : Byte}
    (hstep : step (atCursor s i pend out) =
      .next (advanceCursor (oweEscape y (txWrite Config.ESC (atCursor s i pend out))))) :
    run 2 (atCursor s i pend out) = .next (atCursor s (i + 1) y (out ++ [Config.ESC, y])) := by
  let owing := advanceCursor (oweEscape y (txWrite Config.ESC (atCursor s i pend out)))
  have hsel : select owing = .run .encX2 := select_enc_x2 hr ho ht rfl
  have hx2 : step owing = .next (escapePaid (txWrite y owing)) :=
    (step_script_nil (s := owing) hscript).trans (clockEdge_selected hsel)
  rw [run_succ hstep, run_succ hx2, run_zero]
  simp [owing, atCursor, advanceCursor, oweEscape, txWrite, escapePaid, hp]

variable (hlen : s.e_len < 2 ^ s.lw)

include hlen

/-- R64 to R67: the item of the payload byte at the cursor is sent, one byte a step. -/
theorem run_item {i : Nat} (hi : i < s.e_len) (pend : Byte) (out : List Byte) :
    ∃ pend', run (item (s.PL.read i)).length (atCursor s i pend out) =
      .next (atCursor s (i + 1) pend' (out ++ item (s.PL.read i))) := by
  have hsel : select (atCursor s i pend out) = .run (decodePayload (s.PL.read i)) :=
    select_enc_fetch hr ho ht hp hi (hi.trans hlen)
  have hstep : step (atCursor s i pend out) = effect (decodePayload (s.PL.read i)) (atCursor s i pend out) :=
    (step_script_nil (s := atCursor s i pend out) hscript).trans (clockEdge_selected hsel)
  by_cases hend : s.PL.read i = Config.END
  · rw [hend] at hstep ⊢
    exact ⟨_, run_escape hr ho hp ht hscript hstep⟩
  by_cases hesc : s.PL.read i = Config.ESC
  · rw [hesc] at hstep ⊢
    exact ⟨_, run_escape hr ho hp ht hscript hstep⟩
  rw [decodePayload_other hend hesc] at hstep
  rw [item_other hend hesc]
  exact ⟨pend, run_succ hstep 0⟩

/-- The items of `k` payload bytes from the cursor on are sent, one byte a step. -/
theorem run_items (k : Nat) {i : Nat} (hi : i + k ≤ s.e_len) (pend : Byte) (out : List Byte) :
    let w := ((List.range' i k).map s.PL.read).flatMap item
    ∃ pend', run w.length (atCursor s i pend out) = .next (atCursor s (i + k) pend' (out ++ w)) := by
  induction k generalizing i pend out with
  | zero => exact ⟨pend, by simp⟩
  | succ k ih =>
    obtain ⟨pend₁, hitem⟩ := run_item hr ho hp ht hscript hlen (show i < s.e_len by omega) pend out
    obtain ⟨pend₂, hrest⟩ := ih (i := i + 1) (by omega) pend₁ (out ++ item (s.PL.read i))
    refine ⟨pend₂, ?_⟩
    rw [List.range'_succ, List.map_cons, List.flatMap_cons, List.length_append, run_add hitem, hrest,
      List.append_assoc, Nat.add_right_comm, Nat.add_assoc i k 1]

/-- R68, R69: from the start of the call the items of the whole payload and the terminator are sent, and the call ends. -/
theorem run_frame_sent (hi : s.e_idx = 0) :
    let w := (payload s.PL s.e_len).flatMap item ++ [Config.END]
    ∃ t, run w.length s = .next t ∧ t.op = .IDLE ∧ t.txq = s.txq ++ w := by
  obtain ⟨pend, hitems⟩ := run_items hr ho hp ht hscript hlen s.e_len (Nat.zero_add _).le s.e_pend s.txq
  rw [← List.range_eq_range', Nat.zero_add] at hitems
  have hstart : atCursor s 0 s.e_pend s.txq = s := by rw [← hi]; rfl
  let last := atCursor s s.e_len pend (s.txq ++ (payload s.PL s.e_len).flatMap item)
  have hsel : select last = .run .encClose := select_enc_close hr ho ht hp rfl
  have hclose : step last = .next (endCall (txWrite Config.END last)) :=
    (step_script_nil (s := last) hscript).trans (clockEdge_selected hsel)
  refine ⟨endCall (txWrite Config.END last), ?_, rfl, List.append_assoc ..⟩
  rw [hstart] at hitems
  rw [List.length_append]
  exact (run_add hitems 1).trans (run_succ hclose 0)

end Call

/-- R69: an encode call of `n` bytes sends their frame. -/
theorem run_encode_call {s : State} {n : Nat} (hn : 1 ≤ n) (hr : s.rst = false) (ho : s.op = .IDLE)
    (hc : s.cmd = some ⟨0, n⟩) (hfit : n < 2 ^ s.lw) (ht : txReady s = true) (hscript : s.script = []) :
    ∃ t, run (1 + (enc (payload s.PL n)).length) s = .next t ∧ t.op = .IDLE ∧
      t.txq = s.txq ++ enc (payload s.PL n) := by
  let started := startEncode n (takeCommand s)
  have haccept : step s = .next started := by
    rw [step_script_nil hscript, clockEdge_selected (Commands.select_commandStep hr ho hc hfit),
      Commands.commandStep_zero, effect, if_neg (by omega)]
  have hframe : enc (payload s.PL n) = (payload s.PL n).flatMap item ++ [Config.END] :=
    if_neg (by simp [payload]; omega)
  rw [Nat.add_comm, run_succ haccept, hframe]
  exact run_frame_sent (s := started) hr rfl rfl ht hscript hfit rfl

/-! ### The round trip -/

theorem length_payload (m : Mem) (n : Nat) : (payload m n).length = n := by simp [payload]

theorem getElem?_payload (m : Mem) {n i : Nat} (h : i < n) : (payload m n)[i]? = some (m.read i) := by
  simp [payload, h]

/-- Settles O50: the bytes sent are a frame, which decodes to the payload with nothing left over; the frame of the empty
payload is no byte, for which the decoder waits. -/
theorem roundTrip : Obligations.RoundTrip := by
  refine ⟨fun a b n cap hn hra hoa hca hfita hta hscripta htxq hrb hob hcb hfitb hscriptb hwf => ?_,
    fun b cap k hr ho hc hfit hscript hq => ?_⟩
  · obtain ⟨a', hsend, -, hout⟩ := run_encode_call hn hra hoa hca hfita hta hscripta
    rw [htxq, List.nil_append, ← List.append_nil (enc _)] at hout
    have hne : payload a.PL n ≠ [] := List.ne_nil_of_length_pos (by rw [length_payload]; exact hn)
    have hdec : dec a'.txq = some (payload a.PL n, false, []) := hout ▸ dec_enc_append hne []
    obtain ⟨hwhole, -⟩ := decodeCallResult { b with rxq := a'.txq } cap hrb hob hcb hfitb hscriptb hwf
    obtain ⟨w, b', hw, hrun, hidle, hdone, hrx, hcount, hovf, hmal, hstored, hkept, -⟩ := hwhole _ _ _ hdec
    have hw : a'.txq = w := hw.trans (List.append_nil w)
    rw [length_payload] at hcount hovf
    refine ⟨a', b', hsend, hw ▸ hrun, ?_, hidle, hcount, hovf, hmal, hrx, fun i hi => ?_, fun i hi => ?_⟩
    · simp [done, hdone]
    · have hread := hstored i (hcount ▸ hi)
      rw [getElem?_payload a.PL (show i < n by omega)] at hread
      exact (Option.some.inj hread).symm
    · exact hkept i (hcount ▸ hi)
  · exact ⟨accepted cap b, run_without_bytes hr ho hc hfit hscript (hq.trans enc_nil) k, rfl, rfl, rfl⟩

end Sys2Proof.Proofs.RoundTrip

/-! R94, R95: reset. The registers and the frame of a reset edge are those of `resetRegisters`; which edges end a call is
read off the inversion of the clock edge, once per rule. -/

namespace Sys2Proof.Proofs.Reset

open Sys2Proof Sys2Proof.Machine Sys2Proof.Safety Sys2Proof.Laws

/-- R23: the reset values do not depend on the state that is reset. -/
theorem registers_resetRegisters (s : State) : registers (resetRegisters s) = registers State.reset := rfl

/-- The guarded store goes on with the call. -/
theorem append_keeps_op {v : Byte} {s t : State} (h : append v s = .next t) : t.op = s.op := by
  rcases append_cases h with ⟨-, -, rfl⟩ | ⟨-, rfl⟩ <;> rfl

/-- R94: every edge of a busy block keeps `op`, but for reset and the two steps that complete a call. -/
theorem edgeStep_keeps_op_or_ends {s t : State} (hbusy : s.op ≠ .IDLE) (h : EdgeStep s t) :
    t.op = s.op ∨ s.rst = true ∨ select s = .run .encClose ∨ select s = .run .decEnd := by
  cases h with
  | reset hr => exact .inr (.inl hr)
  | encClose _ hs => exact .inr (.inr (.inl hs))
  | decEnd _ _ hs => exact .inr (.inr (.inr hs))
  | encodeZero _ _ hidle | encode _ _ _ hidle | decode _ _ _ hidle => exact absurd hidle hbusy
  | hold | encX2 | encEnd | encEsc | encLit | decEsc => exact .inl rfl
  | decLit _ _ _ _ _ _ _ _ _ _ ha | decXend _ _ _ _ _ _ _ ha | decXesc _ _ _ _ _ _ _ ha
  | decXlit _ _ _ _ _ _ _ _ _ _ ha => exact .inl (by simpa using append_keeps_op ha)

/-- Settles O2: a reset edge goes to `resetRegisters s`, and an edge that makes a busy block idle does not keep `op`. -/
theorem resetEdgeTakesResetValues : Obligations.ResetEdgeTakesResetValues := by
  refine ⟨fun s hr => ?_, fun s t h hbusy hidle => ?_⟩
  · refine ⟨resetRegisters s, clockEdge_rst hr, registers_resetRegisters s, ?_⟩
    simp only [resetRegisters_fields, and_self]
  · obtain hop | hends := edgeStep_keeps_op_or_ends hbusy (edgeStep_of_clockEdge h)
    · exact absurd (hop.symm.trans hidle) hbusy
    · exact hends

end Sys2Proof.Proofs.Reset

/-! R22, R106: the turns of a run. A turn is an edge or a move of another agent; a move reaches the environment only; and
what holds at every boundary of a run is shown turn by turn, with the turns taken so far at hand. -/

namespace Sys2Proof.Proofs.Turns

open Sys2Proof Sys2Proof.Machine Sys2Proof.Safety Sys2Proof.Laws Sys2Proof.Proofs.EarlierCalls

/-! ### One turn -/

/-- The state once the turn at the head of its script is taken off (log 3). -/
def turnTaken (s : State) : State := { s with script := s.script.tail }

/-- Everything a step can do, with the turn that it takes: an edge, listed or not, or a move of another agent. -/
theorem step_turn {s t : State} (h : step s = .next t) :
    ((s.script.take 1 = [] ∨ s.script.take 1 = [.edge]) ∧ EdgeStep (turnTaken s) t) ∨
    ∃ m, s.script.take 1 = [.agent m] ∧ envMove m (turnTaken s) = .next t := by
  obtain ⟨hs, hedge⟩ | ⟨rest, hs, hedge⟩ | ⟨m, rest, hs, hmove⟩ := step_cases h
  · have hsame : turnTaken s = s := by rw [turnTaken, hs]; exact congrArg (fun l => { s with script := l }) hs.symm
    exact .inl ⟨.inl (by rw [hs]; rfl), by rw [hsame]; exact hedge⟩
  · exact .inl ⟨.inr (by rw [hs]; rfl), by rw [turnTaken, hs]; exact hedge⟩
  · exact .inr ⟨m, by rw [hs]; rfl, by rw [turnTaken, hs]; exact hmove⟩

/-- The guarded store writes DB, `d_len` and OVF only. -/
theorem append_frame {v : Byte} {s t : State} (h : append v s = .next t) :
    ∃ db len o, t = { s with DB := db, d_len := len, OVF := o } := by
  rcases append_cases h with ⟨-, -, rfl⟩ | ⟨-, rfl⟩ <;> exact ⟨_, _, _, rfl⟩

/-- An edge leaves the parameter, the turns to come and the inputs of the block alone, but for an accepted command, and PL. -/
theorem edgeStep_inputs {s t : State} (h : EdgeStep s t) :
    t.lw = s.lw ∧ t.script = s.script ∧ t.rst = s.rst ∧ t.tx_ready = s.tx_ready ∧ t.PL = s.PL ∧
    (t.cmd = s.cmd ∨ t.cmd = none) := by
  cases h with
  | encodeZero | encode | decode => exact ⟨rfl, rfl, rfl, rfl, rfl, .inr rfl⟩
  | reset | hold | encX2 | encClose | encEnd | encEsc | encLit | decEnd | decEsc =>
    exact ⟨rfl, rfl, rfl, rfl, rfl, .inl rfl⟩
  | decLit _ _ _ _ _ _ _ _ _ _ ha | decXend _ _ _ _ _ _ _ ha | decXesc _ _ _ _ _ _ _ ha
  | decXlit _ _ _ _ _ _ _ _ _ _ ha =>
    obtain ⟨_, _, _, rfl⟩ := append_frame ha
    exact ⟨rfl, rfl, rfl, rfl, rfl, .inl rfl⟩

/-- A move of another agent that answers a next state, by the move. -/
inductive MoveStep (s : State) : EnvMove → State → Prop
  | present (c : Command) : MoveStep s (.present c) { s with cmd := some c }
  | withdraw : MoveStep s .withdraw { s with cmd := none }
  | writePL (i : Nat) (b : Byte) (hi : i < 2 ^ s.lw) : MoveStep s (.writePL i b) { s with PL := s.PL.write i b }
  | writeDB (i : Nat) (b : Byte) (hi : i < 2 ^ s.lw) : MoveStep s (.writeDB i b) { s with DB := s.DB.write i b }
  | setRst (v : Bool) : MoveStep s (.setRst v) { s with rst := v }
  | deliver (b : Byte) : MoveStep s (.deliver b) { s with rxq := s.rxq ++ [b] }
  | loseReceived (n : Nat) : MoveStep s (.loseReceived n) { s with rxq := s.rxq.eraseIdx n }
  | setTxReady (v : Bool) : MoveStep s (.setTxReady v) { s with tx_ready := v }
  | sendOldest : MoveStep s .sendOldest { s with txq := s.txq.tail }

/-- Every next state of a move is `MoveStep`'s. -/
theorem moveStep_of_envMove {m : EnvMove} {s t : State} (h : envMove m s = .next t) : MoveStep s m t := by
  cases m with
  | present | withdraw | setRst | deliver | loseReceived | setTxReady | sendOldest =>
    cases h
    constructor
  | writePL i b =>
    rw [envMove_writePL] at h
    split at h <;> cases h
    next hi => exact .writePL i b hi
  | writeDB i b =>
    rw [envMove_writeDB] at h
    split at h <;> cases h
    next hi => exact .writeDB i b hi

/-- R22: a move of another agent writes the environment only. -/
theorem envMove_frame {m : EnvMove} {s t : State} (h : envMove m s = .next t) :
    ∃ pl db rx tx c ready r,
      t = { s with PL := pl, DB := db, rxq := rx, txq := tx, cmd := c, tx_ready := ready, rst := r } := by
  cases moveStep_of_envMove h with
  | _ => exact ⟨_, _, _, _, _, _, _, rfl⟩

/-- Only a host write of PL changes PL. -/
theorem envMove_keeps_PL {m : EnvMove} {s t : State} (h : envMove m s = .next t) (hm : ∀ i b, m ≠ .writePL i b) :
    t.PL = s.PL := by
  cases moveStep_of_envMove h with
  | writePL i b => exact absurd rfl (hm i b)
  | _ => rfl

/-- Only a host write of DB changes DB. -/
theorem envMove_keeps_DB {m : EnvMove} {s t : State} (h : envMove m s = .next t) (hm : ∀ i b, m ≠ .writeDB i b) :
    t.DB = s.DB := by
  cases moveStep_of_envMove h with
  | writeDB i b => exact absurd rfl (hm i b)
  | _ => rfl

/-- Only the host's move on the reset input changes it. -/
theorem envMove_keeps_rst {m : EnvMove} {s t : State} (h : envMove m s = .next t) (hm : ∀ v, m ≠ .setRst v) :
    t.rst = s.rst := by
  cases moveStep_of_envMove h with
  | setRst v => exact absurd rfl (hm v)
  | _ => rfl

/-- An idle block to which no command is presented holds, or is reset. -/
theorem edgeStep_idle {s t : State} (ho : s.op = .IDLE) (hc : s.cmd = none) (h : EdgeStep s t) :
    t = s ∨ s.rst = true ∧ t = resetRegisters s := by
  cases h with
  | reset hr => exact .inr ⟨hr, rfl⟩
  | hold => exact .inl rfl
  | encodeZero _ _ _ hcmd | encode _ _ _ _ hcmd | decode _ _ _ _ hcmd => cases hc.symm.trans hcmd
  | encX2 _ _ hop | encClose _ _ hop | encEnd _ _ hop | encEsc _ _ hop | encLit _ _ _ hop | decEnd _ _ _ hop
  | decEsc _ _ _ hop | decLit _ _ _ _ _ hop | decXend _ _ _ _ hop | decXesc _ _ _ _ hop | decXlit _ _ _ _ _ hop =>
    cases ho.symm.trans hop

/-- A step takes the turn at the head of the script and keeps the parameter. -/
theorem step_script_lw {s t : State} (h : step s = .next t) : t.script = s.script.tail ∧ t.lw = s.lw := by
  obtain ⟨-, hedge⟩ | ⟨m, -, hmove⟩ := step_turn h
  · obtain ⟨hlw, hscript, -⟩ := edgeStep_inputs hedge
    exact ⟨hscript, hlw⟩
  · obtain ⟨_, _, _, _, _, _, _, rfl⟩ := envMove_frame hmove
    exact ⟨rfl, rfl⟩

/-! ### A run with its turns -/

/-- Induction along a run: `Q taken u` says what holds at a boundary after the turns `taken`; `C` is known of every boundary
before the last. -/
theorem run_history {Q : List Turn → State → Prop} {C : State → Prop} {s t : State} {k : Nat}
    (hQ : ∀ taken u v, Q taken u → C u → step u = .next v → Q (taken ++ u.script.take 1) v)
    (hC : ∀ j u, j < k → run j s = .next u → C u) {taken : List Turn} (hs : Q taken s) (h : run k s = .next t) :
    Q (taken ++ s.script.take k) t := by
  induction k generalizing s taken with
  | zero =>
    cases h
    simpa using hs
  | succ k ih =>
    obtain ⟨u, hstep, hrun⟩ := run_succ_cases h
    have hu := hQ taken s u hs (hC 0 s (Nat.succ_pos k) rfl) hstep
    have hrest := ih (fun j v hj hv => hC (j + 1) v (by omega) (by rw [run_succ hstep, hv])) hu hrun
    have htake : s.script.take 1 ++ s.script.tail.take k = s.script.take (k + 1) := by
      cases s.script <;> simp
    rwa [(step_script_lw hstep).1, List.append_assoc, htake] at hrest

/-- A step that changes nothing is followed by no other. -/
theorem run_of_step_self {s : State} (h : step s = .next s) (k : Nat) : run k s = .next s := by
  induction k with
  | zero => rfl
  | succ k ih => rw [run_succ h, ih]

/-- A run that answers a next state has answered one at every earlier boundary. -/
theorem run_split {s t : State} {j k : Nat} (h : run (j + k) s = .next t) :
    ∃ u, run j s = .next u ∧ run k u = .next t := by
  induction j generalizing s with
  | zero => exact ⟨s, rfl, by rwa [Nat.zero_add] at h⟩
  | succ j ih =>
    rw [Nat.add_right_comm] at h
    obtain ⟨v, hv, hrun⟩ := run_succ_cases h
    obtain ⟨u, hu, hrest⟩ := ih hrun
    exact ⟨u, by rw [run_succ hv, hu], hrest⟩

/-! ### R22, R106: the moves of the other agents; R5: the parameter -/

/-- Settles O33: every step keeps the parameter, hence every run. -/
theorem parameterNeverChanges : Obligations.ParameterNeverChanges := by
  intro s t k h
  refine run_invariant (P := fun u => u.lw = s.lw) (fun u v hu hv => ?_) rfl h
  exact (step_script_lw hv).2.trans hu

/-- Settles O40: a move of another agent writes the environment only. -/
theorem otherAgentsTouchNoRegister : Obligations.OtherAgentsTouchNoRegister := by
  intro s t m rest hs h
  rw [step_script_agent hs] at h
  obtain ⟨_, _, _, _, _, _, _, rfl⟩ := envMove_frame h
  exact ⟨rfl, rfl, rfl⟩

/-- Settles O41: most moves write one field outright; a loss takes one byte out of the queue, and a host write inside the
index space is a `Mem.write`. -/
theorem environmentMoveEffects : Obligations.EnvironmentMoveEffects := by
  intro s
  refine ⟨fun c => rfl, rfl, fun v => rfl, fun v => rfl, fun b => rfl, fun q₁ b q₂ hq => ?_, fun b q hq => ?_,
    fun i b hwf hi => ?_, fun i b hwf hi => ?_⟩
  · have hloss : s.rxq.eraseIdx q₁.length = q₁ ++ q₂ := by
      rw [hq, List.eraseIdx_append_of_length_le le_rfl, Nat.sub_self, List.eraseIdx_cons_zero]
    rw [← hloss]; rfl
  · have hsent : s.txq.tail = q := by rw [hq, List.tail_cons]
    rw [← hsent]; rfl
  · refine ⟨s.PL.write i b, ⟨read_write_same hwf i b, fun a ha => read_write_other s.PL b ha⟩, ?_⟩
    rw [envMove_writePL, if_pos hi]
  · refine ⟨s.DB.write i b, ⟨read_write_same hwf i b, fun a ha => read_write_other s.DB b ha⟩, ?_⟩
    rw [envMove_writeDB, if_pos hi]

end Sys2Proof.Proofs.Turns

/-! R21, R83: the invariants of a sound state, and that nothing traps. Each rule of a clock edge and each move of another
agent keeps them; from a sound state whose environment fits the ports, dispatch meets no case the spec rules out. -/

namespace Sys2Proof.Proofs.Invariants

open Sys2Proof Sys2Proof.Machine Sys2Proof.Safety Sys2Proof.Laws Sys2Proof.Proofs.EarlierCalls Sys2Proof.Proofs.Turns

/-! ### R21(a) to (d) and (f) -/

/-- The guarded store stays within the capacity and the index space, and sets OVF on a full buffer only. -/
theorem sound_append {v : Byte} {s t : State} (hs : Sound s) (h : append v s = .next t) : Sound t := by
  obtain ⟨⟨hlw, helen, heidx, hdlen, hdcap⟩, ⟨hPL, hPLin, hDB, hDBin⟩, hact, hcap, hcur, hesc, hovf⟩ := hs
  rcases append_cases h with ⟨hroom, hspace, rfl⟩ | ⟨hfull, rfl⟩
  · have hcount : s.d_len + 1 < 2 ^ s.lw := Nat.lt_of_le_of_lt hroom hdcap
    have hnot : s.OVF = true → s.d_len + 1 = s.d_cap := fun ho => absurd (hovf ho) hroom.ne
    exact ⟨⟨hlw, helen, heidx, hcount, hdcap⟩, ⟨hPL, hPLin, write_wf hDB _ v, write_inSpace hDBin hspace v⟩, hact,
      hroom, hcur, hesc, hnot⟩
  · exact ⟨⟨hlw, helen, heidx, hdlen, hdcap⟩, ⟨hPL, hPLin, hDB, hDBin⟩, hact, hcap, hcur, hesc,
      fun _ => Nat.le_antisymm hcap hfull⟩

/-- The first byte of an escape sequence is sent: the cursor has moved on within the payload and the second byte is
owed. -/
theorem sound_owing {s : State} {y : Byte} (hs : Sound s) (ho : s.op = .ENC) (hi : s.e_idx < s.e_len)
    (hy : y = Config.ESC_END ∨ y = Config.ESC_ESC) :
    Sound (advanceCursor (oweEscape y (txWrite Config.ESC s))) := by
  obtain ⟨⟨hlw, helen, heidx, hdlen, hdcap⟩, hbuf, hact, hcap, hcur, hesc, hovf⟩ := hs
  obtain ⟨hpos, -⟩ := hcur ho
  exact ⟨⟨hlw, helen, Nat.lt_of_le_of_lt hi helen, hdlen, hdcap⟩, hbuf, hact, hcap, fun _ => ⟨hpos, hi⟩,
    fun _ _ => ⟨Nat.le_add_left 1 s.e_idx, hy⟩, hovf⟩

/-- The invariants of the decoder, for a byte read and a state other than DONE entered. -/
theorem sound_enterState {s : State} {d : DState} (hs : Sound s) (hd : d ≠ .DONE) (q : List Byte) :
    Sound (enterState d { s with rxq := q }) := by
  obtain ⟨hrange, hbuf, -, hrest⟩ := hs
  exact ⟨hrange, hbuf, fun _ => hd, hrest⟩

/-- Every rule of a clock edge keeps the invariants. -/
theorem sound_edge {s t : State} (hs : Sound s) (h : EdgeStep s t) : Sound t := by
  have ⟨⟨hlw, helen, heidx, hdlen, hdcap⟩, hbuf, hact, hcap, hcur, hesc, hovf⟩ := hs
  have hzero : 0 < 2 ^ s.lw := Nat.two_pow_pos s.lw
  cases h with
  | reset => exact ⟨⟨hlw, hzero, hzero, hzero, hzero⟩, hbuf, nofun, le_rfl, nofun, nofun, nofun⟩
  | hold => exact hs
  | encodeZero => exact hs
  | encode len _ _ _ _ hfit hpos =>
    exact ⟨⟨hlw, hfit, hzero, hdlen, hdcap⟩, hbuf, nofun, hcap,
      fun _ => ⟨Nat.pos_of_ne_zero hpos, Nat.zero_le len⟩, nofun, hovf⟩
  | decode cap _ _ _ _ hfit =>
    exact ⟨⟨hlw, helen, heidx, hzero, hfit⟩, hbuf, nofun, Nat.zero_le cap, nofun, nofun, nofun⟩
  | encX2 => exact ⟨⟨hlw, helen, heidx, hdlen, hdcap⟩, hbuf, hact, hcap, hcur, nofun, hovf⟩
  | encClose => exact ⟨⟨hlw, helen, heidx, hdlen, hdcap⟩, hbuf, nofun, hcap, nofun, nofun, hovf⟩
  | encEnd _ _ ho _ _ hi => exact sound_owing hs ho hi (.inl rfl)
  | encEsc _ _ ho _ _ hi => exact sound_owing hs ho hi (.inr rfl)
  | encLit b _ _ ho _ hp hi =>
    have hfetch : s.e_phase ≠ .E_ESC2 := by rw [hp]; nofun
    obtain ⟨hpos, -⟩ := hcur ho
    exact ⟨⟨hlw, helen, Nat.lt_of_le_of_lt hi helen, hdlen, hdcap⟩, hbuf, hact, hcap, fun _ => ⟨hpos, hi⟩,
      fun _ hphase => absurd hphase hfetch, hovf⟩
  | decEnd => exact ⟨⟨hlw, helen, heidx, hdlen, hdcap⟩, hbuf, nofun, hcap, nofun, nofun, hovf⟩
  | decEsc q => exact sound_enterState hs (by decide) q
  | decLit c q _ _ _ _ _ _ _ _ ha => exact sound_append (s := { s with rxq := q }) hs ha
  | decXend q _ _ _ _ _ _ ha => exact sound_append (sound_enterState hs (by decide) q) ha
  | decXesc q _ _ _ _ _ _ ha => exact sound_append (sound_enterState hs (by decide) q) ha
  | decXlit c q _ _ _ _ _ _ _ _ ha =>
    exact sound_append (s := setMAL (enterState .LITERAL { s with rxq := q }))
      (sound_enterState (d := .LITERAL) hs (by decide) q) ha

/-- A host write keeps both buffers in canonical form and inside their space; no other move reaches them. -/
theorem buffersWf_envMove {m : EnvMove} {s t : State} (hs : BuffersWf s) (h : envMove m s = .next t) : BuffersWf t := by
  have ⟨hPL, hPLin, hDB, hDBin⟩ := hs
  cases moveStep_of_envMove h with
  | writePL i b hi => exact ⟨write_wf hPL i b, write_inSpace hPLin hi b, hDB, hDBin⟩
  | writeDB i b hi => exact ⟨hPL, hPLin, write_wf hDB i b, write_inSpace hDBin hi b⟩
  | _ => exact hs

/-- A move of another agent reaches no register, so of the invariants only those of the buffers are at stake. -/
theorem sound_envMove {m : EnvMove} {s t : State} (hs : Sound s) (h : envMove m s = .next t) : Sound t := by
  obtain ⟨hrange, hbuf, hrest⟩ := hs
  have hbuf' := buffersWf_envMove hbuf h
  obtain ⟨_, _, _, _, _, _, _, rfl⟩ := envMove_frame h
  exact ⟨hrange, hbuf', hrest⟩

/-- Settles O29: a turn is an edge or a move of another agent, and each keeps the invariants. -/
theorem everyStepKeepsInvariants : Obligations.EveryStepKeepsInvariants := by
  intro s t hs h
  have htaken : Sound (turnTaken s) := hs
  obtain ⟨-, hedge⟩ | ⟨m, -, hmove⟩ := step_turn h
  · exact sound_edge htaken hedge
  · exact sound_envMove htaken hmove

/-! ### R83: nothing traps -/

/-- A sound state whose presented command fits its wires selects a reset, a hold or a step, never a stop. -/
theorem select_of_sound {s : State} (hs : Sound s) (hcmd : ∀ c ∈ s.cmd, c.arg < 2 ^ s.lw) :
    s.rst = true ∨ select s = .hold ∨ ∃ i, select s = .run i := by
  obtain ⟨⟨-, helen, -⟩, -, hact, -, hcur, -⟩ := hs
  cases hr : s.rst with
  | true => exact .inl rfl
  | false =>
    right
    cases ho : s.op with
    | IDLE =>
      cases hc : s.cmd with
      | none => exact .inl (select_idle_none hr ho hc)
      | some c => exact .inr ⟨_, Commands.select_commandStep hr ho hc (hcmd c hc)⟩
    | ENC =>
      cases ht : s.tx_ready with
      | false => exact .inl (select_enc_hold hr ho ht)
      | true =>
        right
        cases hp : s.e_phase with
        | E_ESC2 => exact ⟨_, select_enc_x2 hr ho ht hp⟩
        | E_FETCH =>
          obtain ⟨-, hwithin⟩ := hcur ho
          rcases hwithin.lt_or_eq with hi | hi
          · exact ⟨_, select_enc_fetch hr ho ht hp hi (hi.trans helen)⟩
          · exact ⟨_, select_enc_close hr ho ht hp hi⟩
    | DEC =>
      cases hq : s.rxq with
      | nil => exact .inl (select_dec_hold hr ho hq)
      | cons c q =>
        right
        cases hd : s.d_state with
        | LITERAL => exact ⟨_, select_dec_literal hr ho hq hd⟩
        | PENDING_ESCAPE => exact ⟨_, select_dec_pending hr ho hq hd⟩
        | DONE => exact absurd hd (hact ho)

/-- With the count inside the index space the guarded store answers a next state. -/
theorem append_answers {s : State} (v : Byte) (hspace : s.d_len < 2 ^ s.lw) : ∃ t, append v s = .next t := by
  rcases Nat.lt_or_ge s.d_len s.d_cap with hroom | hfull
  · exact ⟨_, append_store hroom hspace⟩
  · exact ⟨_, append_full hfull⟩

/-- With the count inside the index space every effect answers a next state. -/
theorem effect_answers {s : State} (i : Instr) (hspace : s.d_len < 2 ^ s.lw) : ∃ t, effect i s = .next t := by
  cases i with
  | encode | decode | encX2 | encClose | encEnd | encEsc | encLit | decEnd | decEsc => exact ⟨_, rfl⟩
  | decLit | decXend | decXesc | decXlit => exact append_answers _ hspace

/-- R57: the clock edge of a sound state answers a next state. -/
theorem clockEdge_answers {s : State} (hs : Sound s) (hcmd : ∀ c ∈ s.cmd, c.arg < 2 ^ s.lw) :
    ∃ t, clockEdge s = .next t := by
  obtain hr | hhold | ⟨i, hi⟩ := select_of_sound hs hcmd
  · exact ⟨_, clockEdge_rst hr⟩
  · exact ⟨_, clockEdge_hold hhold⟩
  · obtain ⟨⟨-, -, -, hdlen, -⟩, -⟩ := hs
    rw [clockEdge_selected hi]
    exact effect_answers i hdlen

/-- A move that fits the ports and the index spaces answers a next state. -/
theorem envMove_answers {m : EnvMove} {s : State} (h : moveFits s.lw m = true) : ∃ t, envMove m s = .next t := by
  cases m with
  | present | withdraw | setRst | deliver | loseReceived | setTxReady | sendOldest => exact ⟨_, rfl⟩
  | writePL i b => exact ⟨_, by rw [envMove_writePL, if_pos (of_decide_eq_true h)]⟩
  | writeDB i b => exact ⟨_, by rw [envMove_writeDB, if_pos (of_decide_eq_true h)]⟩

/-- From a sound state with a fitting environment the next turn is taken. -/
theorem step_answers {s : State} (hs : Sound s) (henv : EnvFits s) : ∃ t, step s = .next t := by
  obtain ⟨hcmd, hscript⟩ := henv
  cases hl : s.script with
  | nil =>
    rw [step_script_nil hl]
    exact clockEdge_answers hs hcmd
  | cons u rest =>
    have hfits : turnFits s.lw u = true := hscript u (by simp [hl])
    cases u with
    | edge =>
      rw [step_script_edge hl]
      exact clockEdge_answers (s := { s with script := rest }) hs hcmd
    | agent m =>
      rw [step_script_agent hl]
      exact envMove_answers (s := { s with script := rest }) hfits

/-- A move leaves a fitting command on the channel if it fits itself. -/
theorem envMove_cmd {m : EnvMove} {s t : State} (hfits : moveFits s.lw m = true) (h : envMove m s = .next t)
    (hcmd : ∀ c ∈ s.cmd, c.arg < 2 ^ s.lw) : ∀ c ∈ t.cmd, c.arg < 2 ^ s.lw := by
  cases moveStep_of_envMove h with
  | present c =>
    rintro _ ⟨⟩
    exact of_decide_eq_true hfits
  | withdraw => nofun
  | _ => exact hcmd

/-- A step presents no command that does not fit, and takes a turn off the script. -/
theorem envFits_step {s t : State} (henv : EnvFits s) (h : step s = .next t) : EnvFits t := by
  obtain ⟨hcmd, hscript⟩ := henv
  obtain ⟨htail, hlw⟩ := step_script_lw h
  refine ⟨?_, fun u hu => ?_⟩
  · rw [hlw]
    obtain ⟨-, hedge⟩ | ⟨m, htaken, hmove⟩ := step_turn h
    · obtain ⟨-, -, -, -, -, hkept | hnone⟩ := edgeStep_inputs hedge
      · rw [hkept]; exact hcmd
      · rw [hnone]; nofun
    · have hfits : turnFits s.lw (.agent m) = true :=
        hscript _ (List.mem_of_mem_take (i := 1) (htaken ▸ List.mem_singleton_self _))
      exact envMove_cmd (s := turnTaken s) hfits hmove hcmd
  · rw [hlw]
    rw [htail] at hu
    exact hscript u (List.mem_of_mem_tail hu)

/-- Settles O32: progress and preservation, by induction on the number of steps. -/
theorem nothingTraps : Obligations.NothingTraps := by
  intro s k hs henv
  induction k generalizing s with
  | zero => exact ⟨s, rfl, hs, henv⟩
  | succ k ih =>
    obtain ⟨u, hu⟩ := step_answers hs henv
    obtain ⟨t, ht⟩ := ih u (everyStepKeepsInvariants s u hs hu) (envFits_step henv hu)
    exact ⟨t, (run_succ hu k).symm ▸ ht⟩

/-! ### R21(e), the last clause of R21(d), and the base case -/

/-- The guarded store leaves the call of a decoder in progress. -/
theorem append_not_encode {v : Byte} {s t : State} (h : append v s = .next t) (ho : s.op = .DEC) : t.op ≠ .ENC := by
  rw [Reset.append_keeps_op h, ho]
  decide

/-- The latched second byte of an escape sequence is the one that the payload byte `b` calls for (R65, R66). -/
def Calls (b y : Byte) : Prop := b = Config.END ∧ y = Config.ESC_END ∨ b = Config.ESC ∧ y = Config.ESC_ESC

/-- An edge after which an encode call owes a byte has changed nothing, or has sent the first byte of the sequence for the
payload byte now before the cursor. -/
theorem edgeStep_owing {s t : State} (h : EdgeStep s t) (ho : t.op = .ENC) (hp : t.e_phase = .E_ESC2) :
    t = s ∨ s.op = .ENC ∧ Calls (t.PL.read (t.e_idx - 1)) t.e_pend := by
  cases h with
  | hold => exact .inl rfl
  | encEnd _ _ hop _ _ _ _ hb => exact .inr ⟨hop, .inl ⟨hb, rfl⟩⟩
  | encEsc _ _ hop _ _ _ _ hb => exact .inr ⟨hop, .inr ⟨hb, rfl⟩⟩
  | reset | encode | encX2 => cases hp
  | encLit _ _ _ _ _ hfetch => cases hp.symm.trans hfetch
  | decode | encClose | decEnd => cases ho
  | encodeZero _ _ hop | decEsc _ _ _ hop => cases ho.symm.trans hop
  | decLit _ _ _ _ _ hop _ _ _ _ ha | decXend _ _ _ _ hop _ _ ha | decXesc _ _ _ _ hop _ _ ha
  | decXlit _ _ _ _ _ hop _ _ _ _ ha => exact absurd ho (append_not_encode ha hop)

/-- Settles O30: only the acceptance of ENCODE starts an encode call, and a step that leaves a byte owed starts none. -/
theorem encodeCallEnteredInFetch : Obligations.EncodeCallEnteredInFetch := by
  intro s t h hnot ho
  obtain ⟨-, hedge⟩ | ⟨m, -, hmove⟩ := step_turn h
  · cases hp : t.e_phase with
    | E_FETCH => rfl
    | E_ESC2 =>
      obtain rfl | ⟨henc, -⟩ := edgeStep_owing hedge ho hp
      · exact absurd ho hnot
      · exact absurd henc hnot
  · obtain ⟨_, _, _, _, _, _, _, rfl⟩ := envMove_frame hmove
    exact absurd ho hnot

/-- A byte that `Calls` relates to the owed one is the byte that the owed one stands for. -/
theorem Calls.matches {b y : Byte} (h : Calls b y) :
    (y = Config.ESC_END → b = Config.END) ∧ (y = Config.ESC_ESC → b = Config.ESC) := by
  obtain ⟨rfl, rfl⟩ | ⟨rfl, rfl⟩ := h
  · exact ⟨fun _ => rfl, fun h => absurd h escEnd_ne_escEsc⟩
  · exact ⟨fun h => absurd h escEsc_ne_escEnd, fun _ => rfl⟩

/-- Settles O31: a byte owed after an edge was owed before or is latched there from the payload byte; a move other than a
host write of PL reaches neither. -/
theorem owedEscapeMatchesPayload : Obligations.OwedEscapeMatchesPayload := by
  intro s t hs h hno
  obtain ⟨-, hedge⟩ | ⟨m, htaken, hmove⟩ := step_turn h
  · intro ho hp
    obtain rfl | ⟨-, hcalls⟩ := edgeStep_owing hedge ho hp
    · exact hs ho hp
    · exact hcalls.matches
  · have hm : ∀ i b, m ≠ .writePL i b := by
      rintro i b rfl
      cases hscript : s.script with
      | nil => simp [hscript] at htaken
      | cons u rest =>
        obtain rfl : u = .agent (.writePL i b) := by simpa [hscript] using htaken
        exact hno i b rest hscript
    have hPL : t.PL = s.PL := envMove_keeps_PL (s := turnTaken s) hmove hm
    obtain ⟨_, _, _, _, _, _, _, rfl⟩ := envMove_frame hmove
    obtain rfl := hPL
    exact hs

/-- Settles O28: the registers are zero, the buffers and the script empty, and no command is presented. -/
theorem invariantsHoldAtReset : Obligations.InvariantsHoldAtReset := by
  exact ⟨⟨by decide, by decide, nofun, le_rfl, nofun, nofun, nofun⟩, nofun, nofun⟩

end Sys2Proof.Proofs.Invariants

/-! R45 to R55: the decoder and the encoder of the three formats, and the opcode table. Each statement is read off once per
format; the table is compared on words, not byte by byte. -/

namespace Sys2Proof.Proofs.Encoding

open Sys2Proof Sys2Proof.Laws Sys2Proof.Proofs.Encoder Sys2Proof.Proofs.Decoder

/-! ### Words and instructions -/

/-- Settles O34: the word of a command unpacks to its fields, and the operand of a catch-all row is none of the bytes that
select another row of its context. -/
theorem decodeOfEncode : Obligations.DecodeOfEncode := by
  intro lw i hwf
  cases i with
  | encode len => rw [encode, decode_command, if_pos (of_decide_eq_true hwf), if_pos rfl]
  | decode cap => rw [encode, decode_command, if_pos (of_decide_eq_true hwf)]; rfl
  | encX2 => exact decode_escapePending lw
  | encClose => exact decode_payloadDone lw
  | encEnd => exact (decode_payload lw _).trans (congrArg _ decodePayload_end)
  | encEsc => exact (decode_payload lw _).trans (congrArg _ decodePayload_esc)
  | encLit b =>
    obtain ⟨hend, hesc⟩ := of_decide_eq_true hwf
    rw [encode, decode_payload, decodePayload_other hend hesc]
  | decEnd => exact (decode_wireLiteral lw _).trans (congrArg _ decodeLiteral_end)
  | decEsc => exact (decode_wireLiteral lw _).trans (congrArg _ decodeLiteral_esc)
  | decLit c =>
    obtain ⟨hend, hesc⟩ := of_decide_eq_true hwf
    rw [encode, decode_wireLiteral, decodeLiteral_other hend hesc]
  | decXend => exact (decode_wirePending lw _).trans (congrArg _ decodePending_escEnd)
  | decXesc => exact (decode_wirePending lw _).trans (congrArg _ decodePending_escEsc)
  | decXlit c =>
    obtain ⟨hend, hesc⟩ := of_decide_eq_true hwf
    rw [encode, decode_wirePending, decodePending_other hend hesc]

/-- A word that decodes has no bit beyond its format's width. -/
theorem lt_of_decode {lw : Nat} {ctx : Context} {w : Nat} {i : Instr} (h : decode lw ctx w = .ok i) :
    w < 2 ^ ctx.width lw := by
  by_contra hwide
  rw [show decode lw ctx w = _ from if_neg hwide] at h
  cases h

/-- Settles O36: a word of the width decodes, and a wider number is rejected. -/
theorem everyWordDecodes : Obligations.EveryWordDecodes :=
  fun _ _ _ => ⟨fun ⟨_, h⟩ => lt_of_decode h, decode_of_lt⟩

/-- A number below 256 is the value of a byte. -/
theorem exists_byte {w : Nat} (h : w < 2 ^ 8) : ∃ b : Byte, w = b.toNat :=
  ⟨BitVec.ofNat 8 w, by rw [BitVec.toNat_ofNat, Nat.mod_eq_of_lt h]⟩

/-- A word of LW+1 bits is the packed word of a command that fits its wires (R50). -/
theorem exists_command {lw w : Nat} (h : w < 2 ^ (lw + 1)) : ∃ c : Command, w = packCommand c ∧ c.arg < 2 ^ lw := by
  have hw : w = packCommand ⟨BitVec.ofNat 1 w, w / 2⟩ := by
    rw [packCommand, BitVec.toNat_ofNat, pow_one]
    exact (Nat.mod_add_div w 2).symm
  exact ⟨_, hw, (packCommand_lt _ lw).1 (hw ▸ h)⟩

/-- What a word decodes to, format by format. -/
inductive Decoded (lw : Nat) : Context → Nat → Instr → Prop
  | command (c : Command) (hfit : c.arg < 2 ^ lw) :
      Decoded lw .command (packCommand c) (if c.op = 0 then .encode c.arg else .decode c.arg)
  | escapePending : Decoded lw .escapePending 0 .encX2
  | payloadDone : Decoded lw .payloadDone 0 .encClose
  | payload (b : Byte) : Decoded lw .payload b.toNat (decodePayload b)
  | wireLiteral (c : Byte) : Decoded lw .wireLiteral c.toNat (decodeLiteral c)
  | wirePending (c : Byte) : Decoded lw .wirePending c.toNat (decodePending c)

theorem decoded_of_decode {lw : Nat} {ctx : Context} {w : Nat} {i : Instr} (h : decode lw ctx w = .ok i) :
    Decoded lw ctx w i := by
  have hw := lt_of_decode h
  cases ctx with
  | command =>
    obtain ⟨c, rfl, hfit⟩ := exists_command hw
    rw [decode_command, if_pos hfit] at h
    cases h
    exact .command c hfit
  | escapePending =>
    obtain rfl : w = 0 := Nat.lt_one_iff.1 hw
    rw [decode_escapePending] at h
    cases h
    exact .escapePending
  | payloadDone =>
    obtain rfl : w = 0 := Nat.lt_one_iff.1 hw
    rw [decode_payloadDone] at h
    cases h
    exact .payloadDone
  | payload =>
    obtain ⟨b, rfl⟩ := exists_byte hw
    rw [decode_payload] at h
    cases h
    exact .payload b
  | wireLiteral =>
    obtain ⟨c, rfl⟩ := exists_byte hw
    rw [decode_wireLiteral] at h
    cases h
    exact .wireLiteral c
  | wirePending =>
    obtain ⟨c, rfl⟩ := exists_byte hw
    rw [decode_wirePending] at h
    cases h
    exact .wirePending c

theorem encode_decodePayload (b : Byte) : encode (decodePayload b) = (.payload, b.toNat) := by
  unfold decodePayload
  split_ifs with hend hesc
  exacts [hend ▸ rfl, hesc ▸ rfl, rfl]

theorem encode_decodeLiteral (c : Byte) : encode (decodeLiteral c) = (.wireLiteral, c.toNat) := by
  unfold decodeLiteral
  split_ifs with hend hesc
  exacts [hend ▸ rfl, hesc ▸ rfl, rfl]

theorem encode_decodePending (c : Byte) : encode (decodePending c) = (.wirePending, c.toNat) := by
  unfold decodePending
  split_ifs with hend hesc
  exacts [hend ▸ rfl, hesc ▸ rfl, rfl]

/-- Settles O35: format by format, the instruction has the word it was decoded from. -/
theorem encodeOfDecode : Obligations.EncodeOfDecode := by
  intro lw ctx w i h
  cases decoded_of_decode h with
  | command c hfit => exact ⟨Commands.encode_commandStep c, (Commands.commandStep_unit hfit).2⟩
  | escapePending | payloadDone => exact ⟨rfl, rfl⟩
  | payload b => exact ⟨encode_decodePayload b, (Commands.decodePayload_unit lw b).2⟩
  | wireLiteral c => exact ⟨encode_decodeLiteral c, (Commands.decodeLiteral_unit lw c).2⟩
  | wirePending c => exact ⟨encode_decodePending c, (Commands.decodePending_unit lw c).2⟩

/-! ### The opcode table -/

/-- The mask `0xFF` keeps a byte, so a row with it fits one byte alone. -/
theorem fits_full (m : Mnemonic) (ctx : Context) (p : Byte) (prio : Nat) (e : List Nat) (b : Byte) :
    (Row.mk m ctx p.toNat 0xFF prio e).fits b.toNat = decide (b = p) := by
  have hmask : b.toNat &&& 0xFF = b.toNat := by
    rw [show (0xFF : Nat) = 2 ^ 8 - 1 from rfl, Nat.and_two_pow_sub_one_eq_mod, Nat.mod_eq_of_lt b.isLt]
  rw [Row.fits, hmask, Bool.eq_iff_iff, beq_iff_eq, decide_eq_true_iff, BitVec.toNat_inj]

/-- A row with mask and pattern zero fits every word. -/
theorem fits_any (m : Mnemonic) (ctx : Context) (prio : Nat) (e : List Nat) (w : Nat) :
    (Row.mk m ctx 0 0 prio e).fits w = true := by
  simp [Row.fits]

/-- The three rows of a context in which a byte selects: two bytes with a row of their own and a catch-all row (R55). -/
def byteRows (ctx : Context) (m₁ m₂ m₃ : Mnemonic) (p₁ p₂ : Byte) : List Row :=
  [⟨m₁, ctx, p₁.toNat, 0xFF, 1, []⟩, ⟨m₂, ctx, p₂.toNat, 0xFF, 1, []⟩, ⟨m₃, ctx, 0x00, 0x00, 2, [p₁.toNat, p₂.toNat]⟩]

/-- The mnemonic `m` is the one that both readings of the table give for a word. -/
def Selects (ctx : Context) (w : Nat) (m : Mnemonic) : Prop :=
  tableSelect ctx w = some m ∧ rowsReadAlone ctx w = [m]

/-- Both readings of the table look at the rows of the context only. -/
theorem selects_of_rows {ctx : Context} {l : List Row} (htried : rowsTried ctx = l)
    (hrows : opcodeRows.filter (fun r => r.ctx == ctx) = l) {w : Nat} {m : Mnemonic}
    (hfind : (l.find? (·.fits w)).map (·.mnemonic) = some m)
    (halone : (l.filter fun r => r.fits w && !r.except.contains w).map (·.mnemonic) = [m]) : Selects ctx w m := by
  refine ⟨by rw [tableSelect, htried, hfind], ?_⟩
  rw [← halone, ← hrows, List.filter_filter, rowsReadAlone]
  simp only [Bool.and_comm, Bool.and_left_comm]

/-- In a context of three such rows a byte selects its own row, or the catch-all row. -/
theorem selects_byte {ctx : Context} {m₁ m₂ m₃ : Mnemonic} {p₁ p₂ : Byte} (hne : p₁ ≠ p₂)
    (htried : rowsTried ctx = byteRows ctx m₁ m₂ m₃ p₁ p₂)
    (hrows : opcodeRows.filter (fun r => r.ctx == ctx) = byteRows ctx m₁ m₂ m₃ p₁ p₂) (b : Byte) :
    Selects ctx b.toNat (if b = p₁ then m₁ else if b = p₂ then m₂ else m₃) := by
  by_cases h₁ : b = p₁
  · subst h₁
    exact selects_of_rows htried hrows (by simp [byteRows, fits_full])
      (by simp [byteRows, fits_full, fits_any, hne])
  by_cases h₂ : b = p₂
  · subst h₂
    exact selects_of_rows htried hrows (by simp [byteRows, fits_full, h₁])
      (by simp [byteRows, fits_full, fits_any, h₁])
  · exact selects_of_rows htried hrows (by simp [byteRows, fits_full, fits_any, h₁, h₂])
      (by simp [byteRows, fits_full, fits_any, BitVec.toNat_inj, h₁, h₂])

/-- A command word selects the row of its bit 0. -/
theorem selects_command (c : Command) :
    Selects .command (packCommand c) (if c.op = 0 then .ENCODE else .DECODE) := by
  have hbit : packCommand c &&& 1 = c.op.toNat := by rw [Nat.and_one_is_mod, packCommand_mod]
  rcases (show ∀ b : BitVec 1, b = 0 ∨ b = 1 by decide) c.op with h | h <;>
    exact selects_of_rows (l := [⟨.ENCODE, .command, 0x0, 0x1, 1, []⟩, ⟨.DECODE, .command, 0x1, 0x1, 1, []⟩]) rfl rfl
      (by simp [Row.fits, hbit, h]) (by simp [Row.fits, hbit, h])

theorem mnemonic_command (c : Command) :
    (if c.op = 0 then Instr.encode c.arg else .decode c.arg).mnemonic = if c.op = 0 then .ENCODE else .DECODE :=
  apply_ite Instr.mnemonic ..

theorem mnemonic_decodePayload (b : Byte) : (decodePayload b).mnemonic =
    if b = Config.END then .ENC_END else if b = Config.ESC then .ENC_ESC else .ENC_LIT := by
  rw [decodePayload, apply_ite Instr.mnemonic, apply_ite Instr.mnemonic]
  rfl

theorem mnemonic_decodeLiteral (c : Byte) : (decodeLiteral c).mnemonic =
    if c = Config.END then .DEC_END else if c = Config.ESC then .DEC_ESC else .DEC_LIT := by
  rw [decodeLiteral, apply_ite Instr.mnemonic, apply_ite Instr.mnemonic]
  rfl

theorem mnemonic_decodePending (c : Byte) : (decodePending c).mnemonic =
    if c = Config.ESC_END then .DEC_XEND else if c = Config.ESC_ESC then .DEC_XESC else .DEC_XLIT := by
  rw [decodePending, apply_ite Instr.mnemonic, apply_ite Instr.mnemonic]
  rfl

/-- Settles O37: format by format, the rows of its context select what the word decodes to. -/
theorem decoderFollowsOpcodeTable : Obligations.DecoderFollowsOpcodeTable := by
  intro lw ctx w i h
  cases decoded_of_decode h with
  | command c => rw [mnemonic_command]; exact selects_command c
  | escapePending | payloadDone => exact ⟨rfl, rfl⟩
  | payload b => rw [mnemonic_decodePayload]; exact selects_byte end_ne_esc rfl rfl b
  | wireLiteral c => rw [mnemonic_decodeLiteral]; exact selects_byte end_ne_esc rfl rfl c
  | wirePending c => rw [mnemonic_decodePending]; exact selects_byte escEnd_ne_escEsc rfl rfl c

/-- Settles O38: each word decodes by evaluation. -/
theorem wordsOfTheSpec : Obligations.WordsOfTheSpec :=
  ⟨rfl, rfl, rfl, rfl, rfl, rfl, rfl⟩

end Sys2Proof.Proofs.Encoding

/-! R69, R98, R96(a): a whole encode call, first under any environment, then with the transport ready throughout. A call in
progress has read some payload bytes `r` and written their wire bytes but for an owed one; each turn keeps that, and the
payload changes with the bytes of PL that are still unread. -/

namespace Sys2Proof.Proofs.EncodeCall

open Sys2Proof Sys2Proof.Machine Sys2Proof.Safety Sys2Proof.Laws Sys2Proof.Proofs.EarlierCalls Sys2Proof.Proofs.Turns
  Sys2Proof.Proofs.Invariants Sys2Proof.Proofs.RoundTrip

/-! ### The call in progress -/

/-- The payload bytes that the encoder has still to read. -/
def unread (s : State) : List Byte := (payload s.PL s.e_len).drop s.e_idx

/-- The byte that the encoder owes the wire, if it owes one. -/
def owed (s : State) : List Byte := if s.e_phase = .E_ESC2 then [s.e_pend] else []

theorem owed_fetch {s : State} (h : s.e_phase = .E_FETCH) : owed s = [] := by
  rw [owed, h]; rfl

theorem owed_esc2 {s : State} (h : s.e_phase = .E_ESC2) : owed s = [s.e_pend] := if_pos h

/-- The next byte to read is the one at the cursor. -/
theorem unread_cons {s : State} (hi : s.e_idx < s.e_len) :
    unread s = s.PL.read s.e_idx :: unread (advanceCursor s) := by
  have hlen : s.e_idx < (payload s.PL s.e_len).length := by rwa [length_payload]
  rw [unread, List.drop_eq_getElem_cons hlen]
  congr 1
  simp [payload]

/-- An encode call of the payload `p` that has read `r` and written `w`. -/
structure Sending (p r w : List Byte) (s : State) : Prop where
  op : s.op = .ENC
  len : p.length = s.e_len
  read : r.length = s.e_idx
  payload : p = r ++ unread s
  written : w ++ owed s = r.flatMap item

section Sending

variable {p r w : List Byte} {s t : State}

/-- What the cursor and the phase say has been written. -/
theorem Sending.emitted (h : Sending p r w s) : emitted p s = w := by
  have hread : p.take s.e_idx = r := by rw [h.payload, ← h.read, List.take_left]
  have hw := h.written
  cases hp : s.e_phase with
  | E_FETCH =>
    rw [owed_fetch hp, List.append_nil] at hw
    rw [emitted_fetch p hp, hread, hw]
  | E_ESC2 =>
    rw [owed_esc2 hp] at hw
    rw [emitted_esc2 p hp, hread, ← hw, List.dropLast_concat]

/-- The bytes written are items of the payload, so that the terminator at least is missing. -/
theorem Sending.prefix_items (h : Sending p r w s) : w <+: p.flatMap item := by
  rw [h.payload, List.flatMap_append, ← h.written, List.append_assoc]
  exact List.prefix_append _ _

theorem enc_of_ne_nil (hp : p ≠ []) : enc p = p.flatMap item ++ [Config.END] := if_neg hp

theorem Sending.prefix_enc (h : Sending p r w s) (hp : p ≠ []) : w <+: enc p := by
  rw [enc_of_ne_nil hp]
  exact h.prefix_items.trans (List.prefix_append _ _)

theorem Sending.ne_enc (h : Sending p r w s) (hp : p ≠ []) : w ≠ enc p := by
  rintro rfl
  have hle := h.prefix_items.length_le
  rw [enc_of_ne_nil hp, List.length_append, List.length_singleton] at hle
  omega

/-- R64 to R66: the byte at the cursor has been read; its item is written, but for an owed byte. -/
theorem Sending.take (h : Sending p r w s) (hp : s.e_phase = .E_FETCH) (hi : s.e_idx < s.e_len) {v : List Byte}
    (hop : t.op = s.op) (hlen : t.e_len = s.e_len) (hidx : t.e_idx = s.e_idx + 1) (hPL : t.PL = s.PL)
    (hv : v ++ owed t = item (s.PL.read s.e_idx)) : Sending p (r ++ [s.PL.read s.e_idx]) (w ++ v) t := by
  have hunread : unread s = s.PL.read s.e_idx :: unread t := by
    rw [unread_cons hi, unread, unread, hPL, hlen, hidx]
    rfl
  have hw := h.written
  rw [owed_fetch hp, List.append_nil] at hw
  refine ⟨hop.trans h.op, hlen ▸ h.len, ?_, ?_, ?_⟩
  · rw [List.length_append, h.read, hidx, List.length_singleton]
  · rw [List.append_assoc, List.singleton_append, ← hunread, ← h.payload]
  · rw [List.append_assoc, hv, hw, List.flatMap_append, List.flatMap_singleton]

/-- R67: the owed byte is paid. -/
theorem Sending.pay (h : Sending p r w s) (hp : s.e_phase = .E_ESC2) :
    Sending p r (w ++ [s.e_pend]) (escapePaid (txWrite s.e_pend s)) := by
  refine ⟨h.op, h.len, h.read, h.payload, ?_⟩
  rw [owed_fetch rfl, List.append_nil, ← owed_esc2 hp, h.written]

/-- R68: with the cursor at the end the terminator completes the frame. -/
theorem Sending.close (h : Sending p r w s) (hne : p ≠ []) (hp : s.e_phase = .E_FETCH) (hi : s.e_idx = s.e_len) :
    w ++ [Config.END] = enc p := by
  have hnone : unread s = [] := List.drop_eq_nil_of_le (by rw [length_payload, hi])
  have hpr : p = r := by rw [h.payload, hnone, List.append_nil]
  have hw := h.written
  rw [owed_fetch hp, List.append_nil] at hw
  rw [enc_of_ne_nil hne, hw, ← hpr]

end Sending

/-! ### The stages of a call -/

/-- The call of payload `p` has written `w`: it is in progress, complete, or abandoned by a reset, which `a` allows. -/
inductive Stage (a : Prop) (p w : List Byte) (s : State) : Prop
  | sending (r : List Byte) (h : Sending p r w s) : Stage a p w s
  | complete (ho : s.op = .IDLE) (hw : w = enc p) : Stage a p w s
  | abandoned (ha : a) (ho : s.op = .IDLE) (hreg : registers s = registers State.reset) (hw : w <+: enc p) :
      Stage a p w s

section Stages

variable {a : Prop} {p w : List Byte} {s t : State}

theorem Stage.mono {a' : Prop} (h : Stage a p w s) (ha : a → a') : Stage a' p w s := by
  cases h with
  | sending r h => exact .sending r h
  | complete ho hw => exact .complete ho hw
  | abandoned hreset ho hreg hw => exact .abandoned (ha hreset) ho hreg hw

theorem Stage.prefix_enc (h : Stage a p w s) (hne : p ≠ []) : w <+: enc p := by
  cases h with
  | sending r h => exact h.prefix_enc hne
  | complete _ hw => exact hw ▸ List.prefix_rfl
  | abandoned _ _ _ hw => exact hw

/-- While `op` is ENC the bytes written are what the cursor and the phase say, and never the whole frame. -/
theorem Stage.busy (h : Stage a p w s) (hne : p ≠ []) (ho : s.op = .ENC) : w = Safety.emitted p s ∧ w ≠ enc p := by
  cases h with
  | sending r h => exact ⟨h.emitted.symm, h.ne_enc hne⟩
  | complete hidle | abandoned _ hidle => cases ho.symm.trans hidle

/-- Otherwise the block is idle, with the whole frame written or the registers reset. -/
theorem Stage.ended (h : Stage a p w s) (ho : s.op ≠ .ENC) :
    s.op = .IDLE ∧ (w = enc p ∨ registers s = registers State.reset) := by
  cases h with
  | sending r h => exact absurd h.op ho
  | complete hidle hw => exact ⟨hidle, .inl hw⟩
  | abandoned _ hidle hreg => exact ⟨hidle, .inr hreg⟩

/-- Without a reset the call has ended exactly when the whole frame is written. -/
theorem Stage.idle_iff (h : Stage a p w s) (hne : p ≠ []) (ha : ¬a) : s.op = .IDLE ↔ w = enc p := by
  cases h with
  | sending r h => exact ⟨fun hidle => (by cases h.op.symm.trans hidle), fun hw => absurd hw (h.ne_enc hne)⟩
  | complete hidle hw => exact ⟨fun _ => hw, fun _ => hidle⟩
  | abandoned hreset => exact absurd hreset ha

/-- An edge of a call in progress: nothing, a reset, or one byte more. -/
theorem Sending.edge {r : List Byte} (h : Sending p r w s) (hne : p ≠ []) (ha : s.rst = true → a)
    (hedge : EdgeStep s t) : ∃ v, t.txq = s.txq ++ v ∧ Stage a p (w ++ v) t := by
  have hnil : ∀ l : List Byte, l = l ++ [] := fun l => (List.append_nil l).symm
  cases hedge with
  | reset hr => exact ⟨[], hnil _, .abandoned (ha hr) rfl rfl (hnil w ▸ h.prefix_enc hne)⟩
  | hold => exact ⟨[], hnil _, .sending r (hnil w ▸ h)⟩
  | encX2 _ _ _ _ hp => exact ⟨[s.e_pend], rfl, .sending r (h.pay hp)⟩
  | encClose _ _ _ _ hp hi => exact ⟨[Config.END], rfl, .complete rfl (h.close hne hp hi)⟩
  | encEnd _ _ _ _ hp hi _ hb =>
    exact ⟨[Config.ESC], rfl, .sending _ (h.take hp hi rfl rfl rfl rfl (by rw [hb]; rfl))⟩
  | encEsc _ _ _ _ hp hi _ hb =>
    exact ⟨[Config.ESC], rfl, .sending _ (h.take hp hi rfl rfl rfl rfl (by rw [hb]; rfl))⟩
  | encLit b _ _ _ _ hp hi _ hb hend hesc =>
    have hitem : [b] ++ owed (advanceCursor (txWrite b s)) = item (s.PL.read s.e_idx) := by
      rw [hb, item_other hend hesc, owed_fetch (s := advanceCursor (txWrite b s)) hp, List.append_nil]
    exact ⟨[b], rfl, .sending _ (h.take hp hi rfl rfl rfl rfl hitem)⟩
  | encodeZero _ _ hop | encode _ _ _ hop | decode _ _ _ hop | decEnd _ _ _ hop | decEsc _ _ _ hop
  | decLit _ _ _ _ _ hop | decXend _ _ _ _ hop | decXesc _ _ _ _ hop | decXlit _ _ _ _ _ hop =>
    cases h.op.symm.trans hop

/-- Every edge up to the acceptance of a later command keeps the call at one of its stages. -/
theorem Stage.edge (h : Stage a p w s) (hne : p ≠ []) (hC : s.op = .ENC ∨ s.cmd = none) (ha : s.rst = true → a)
    (hedge : EdgeStep s t) : ∃ v, t.txq = s.txq ++ v ∧ Stage a p (w ++ v) t := by
  have hcmd : s.op = .IDLE → s.cmd = none := fun ho => hC.resolve_left (by rw [ho]; decide)
  cases h with
  | sending r h => exact h.edge hne ha hedge
  | complete ho hw =>
    rw [← List.append_nil w] at hw
    obtain rfl | ⟨-, rfl⟩ := edgeStep_idle ho (hcmd ho) hedge
    · exact ⟨[], (List.append_nil _).symm, .complete ho hw⟩
    · exact ⟨[], (List.append_nil _).symm, .complete rfl hw⟩
  | abandoned hreset ho hreg hw =>
    rw [← List.append_nil w] at hw
    obtain rfl | ⟨-, rfl⟩ := edgeStep_idle ho (hcmd ho) hedge
    · exact ⟨[], (List.append_nil _).symm, .abandoned hreset ho hreg hw⟩
    · exact ⟨[], (List.append_nil _).symm, .abandoned hreset rfl rfl hw⟩

/-- The script says nothing about the stage. -/
theorem Stage.turnTaken (h : Stage a p w s) : Stage a p w (turnTaken s) := by
  cases h with
  | sending r h => exact .sending r ⟨h.op, h.len, h.read, h.payload, h.written⟩
  | complete ho hw => exact .complete ho hw
  | abandoned ha ho hreg hw => exact .abandoned ha ho hreg hw

/-- A move of another agent keeps the stage; a host write of PL changes at most the payload bytes still unread (R98). -/
theorem Stage.move {m : EnvMove} (h : Stage a p w s) (hmove : envMove m s = .next t) :
    ∃ p', p'.length = p.length ∧ Stage a p' w t ∧ (t.PL = s.PL → p' = p) := by
  obtain ⟨pl, _, _, _, _, _, _, rfl⟩ := envMove_frame hmove
  cases h with
  | sending r h =>
    have hlen : (r ++ unread { s with PL := pl }).length = p.length := by
      rw [h.payload, List.length_append, List.length_append, unread, unread, List.length_drop, List.length_drop,
        length_payload, length_payload]
    refine ⟨_, hlen, .sending r ⟨h.op, hlen.trans h.len, h.read, rfl, h.written⟩, fun hPL => ?_⟩
    obtain rfl := hPL
    exact h.payload.symm
  | complete ho hw => exact ⟨p, rfl, .complete ho hw, fun _ => rfl⟩
  | abandoned hreset ho hreg hw => exact ⟨p, rfl, .abandoned hreset ho hreg hw, fun _ => rfl⟩

end Stages

/-! ### The call under any environment -/

/-- A move takes at most one byte off the front of `txq`, and only `sendOldest` does. -/
theorem envMove_txq {m : EnvMove} {s t : State} (h : envMove m s = .next t) :
    ∃ gone, s.txq = gone ++ t.txq ∧ gone.length ≤ [Turn.agent m].count (.agent .sendOldest) := by
  cases moveStep_of_envMove h with
  | sendOldest =>
    cases hq : s.txq with
    | nil => exact ⟨[], by simp, Nat.zero_le _⟩
    | cons b q => exact ⟨[b], by simp, le_rfl⟩
  | _ => exact ⟨[], rfl, Nat.zero_le _⟩

/-- Reset is not driven, from `s` on through the turns `taken`. -/
def NoReset (s : State) (taken : List Turn) : Prop := s.rst = false ∧ ∀ v, .agent (.setRst v) ∉ taken

theorem NoReset.left {s : State} {taken more : List Turn} (h : NoReset s (taken ++ more)) : NoReset s taken :=
  ⟨h.1, fun v hv => h.2 v (List.mem_append_left _ hv)⟩

/-- PL is not written by the turns `taken`. -/
def NoWritePL (taken : List Turn) : Prop := ∀ i b, .agent (.writePL i b) ∉ taken

theorem NoWritePL.left {taken more : List Turn} (h : NoWritePL (taken ++ more)) : NoWritePL taken :=
  fun i b hb => h i b (List.mem_append_left _ hb)

/-- The call that began at `s` stands at `u` after the turns `taken`. -/
def CallSoFar (s : State) (taken : List Turn) (u : State) : Prop :=
  ∃ p w gone, p.length = s.e_len ∧ s.txq ++ w = gone ++ u.txq ∧
    gone.length ≤ taken.count (.agent .sendOldest) ∧ Stage (¬NoReset s taken) p w u ∧
    (NoReset s taken → u.rst = false) ∧ (NoWritePL taken → u.PL = s.PL ∧ p = payload s.PL s.e_len)

/-- At the start nothing has been read or written. -/
theorem callSoFar_start {s : State} (ho : s.op = .ENC) (hp : s.e_phase = .E_FETCH) (hi : s.e_idx = 0) :
    CallSoFar s [] s := by
  have hunread : unread s = payload s.PL s.e_len := by rw [unread, hi, List.drop_zero]
  have hsending : Sending (payload s.PL s.e_len) [] [] s :=
    ⟨ho, length_payload _ _, hi.symm, hunread.symm, owed_fetch hp⟩
  exact ⟨_, [], [], length_payload _ _, List.append_nil _, le_rfl, .sending _ hsending, And.left, fun _ => ⟨rfl, rfl⟩⟩

/-- Each turn up to the acceptance of a later command carries the call on. -/
theorem callSoFar_step {s : State} (hpos : 1 ≤ s.e_len) (taken : List Turn) (u v : State)
    (h : CallSoFar s taken u) (hC : u.op = .ENC ∨ u.cmd = none) (hstep : step u = .next v) :
    CallSoFar s (taken ++ u.script.take 1) v := by
  obtain ⟨p, w, gone, hlen, htx, hgone, hstage, hrst, hPL⟩ := h
  have hcount := List.count_append (a := Turn.agent .sendOldest) (l₁ := taken) (l₂ := u.script.take 1)
  have hstage := hstage.mono (a' := ¬NoReset s (taken ++ u.script.take 1)) fun hno hyes => hno hyes.left
  have hstage := hstage.turnTaken
  obtain ⟨-, hedge⟩ | ⟨m, htaken, hmove⟩ := step_turn hstep
  · have hne : p ≠ [] := List.ne_nil_of_length_pos (hlen ▸ hpos)
    have hreset : u.rst = true → ¬NoReset s (taken ++ u.script.take 1) :=
      fun hr hno => absurd ((hrst hno.left).symm.trans hr) Bool.false_ne_true
    obtain ⟨x, hx, hnext⟩ := hstage.edge hne hC hreset hedge
    obtain ⟨-, -, hr, -, hpl, -⟩ := edgeStep_inputs hedge
    refine ⟨p, w ++ x, gone, hlen, ?_, by omega, hnext, fun hno => hr.trans (hrst hno.left), fun hno => ?_⟩
    · rw [hx, ← List.append_assoc, htx, List.append_assoc]
      rfl
    · obtain ⟨h₁, h₂⟩ := hPL hno.left
      exact ⟨hpl.trans h₁, h₂⟩
  · obtain ⟨more, hmore, hone⟩ := envMove_txq hmove
    obtain ⟨p', hlen', hnext, hsame⟩ := hstage.move hmove
    rw [htaken] at hnext hcount ⊢
    refine ⟨p', w, gone ++ more, hlen'.trans hlen, ?_, ?_, hnext, fun hno => ?_, fun hno => ?_⟩
    · rw [htx, List.append_assoc, ← hmore]
      rfl
    · rw [List.length_append]
      omega
    · have hm : ∀ v, m ≠ .setRst v := fun v hv => hno.2 v (by simp [hv])
      exact (envMove_keeps_rst hmove hm).trans (hrst hno.left)
    · have hm : ∀ i b, m ≠ .writePL i b := fun i b hb => hno i b (by simp [hb])
      have hkept := envMove_keeps_PL hmove hm
      obtain ⟨h₁, h₂⟩ := hPL hno.left
      exact ⟨hkept.trans h₁, (hsame hkept).trans h₂⟩

/-- Settles O47: the call stands at one of its stages at the boundary reached. -/
theorem encodeCallUnderAnyEnvironment : Obligations.EncodeCallUnderAnyEnvironment := by
  intro s t k ho hp hi hpos hC hrun
  obtain ⟨p, w, gone, hlen, htx, hgone, hstage, -, hPL⟩ :=
    run_history (Q := CallSoFar s) (callSoFar_step hpos) hC (callSoFar_start ho hp hi) hrun
  rw [List.nil_append] at hgone hstage hPL
  have hne : p ≠ [] := List.ne_nil_of_length_pos (hlen ▸ hpos)
  exact ⟨p, w, gone, hlen, hstage.prefix_enc hne, htx, hgone, hstage.busy hne, hstage.ended,
    fun hr hno => hstage.idle_iff hne (not_not_intro ⟨hr, hno⟩), fun hno => (hPL hno).2⟩

/-! ### The call with the transport ready throughout -/

/-- An edge of an encode call goes on with it or ends it. -/
theorem edgeStep_encoder_op {s t : State} (ho : s.op = .ENC) (h : EdgeStep s t) : t.op = .ENC ∨ t.op = .IDLE := by
  cases h with
  | reset | encClose => exact .inr rfl
  | hold | encX2 | encEnd | encEsc | encLit => exact .inl ho
  | encodeZero _ _ hop | encode _ _ _ hop | decode _ _ _ hop | decEnd _ _ _ hop | decEsc _ _ _ hop
  | decLit _ _ _ _ _ hop | decXend _ _ _ _ hop | decXesc _ _ _ _ hop | decXlit _ _ _ _ _ hop =>
    cases ho.symm.trans hop

/-- `u` is `s` after at most `k` steps of an encode call: at most `k` bytes more in `txq`, and nothing else written but
encoder registers and `op`. -/
def WroteUpTo (s : State) (k : Nat) (u : State) : Prop :=
  ∃ (idx : Nat) (pend : Byte) (phase : EPhase) (o : Op) (out : List Byte),
    u = { s with e_idx := idx, e_pend := pend, e_phase := phase, op := o, txq := out } ∧ (o = .ENC ∨ o = .IDLE) ∧
      out.length ≤ s.txq.length + k

section Quiet

variable {s : State} (hr : s.rst = false) (hc : s.cmd = none) (hscript : s.script = [])

include hr hc hscript

/-- What the call does not write. -/
theorem WroteUpTo.inputs {k : Nat} {u : State} (h : WroteUpTo s k u) : u.rst = false ∧ u.cmd = none ∧ u.script = [] := by
  obtain ⟨_, _, _, _, _, rfl, -⟩ := h
  exact ⟨hr, hc, hscript⟩

/-- After the end of the call nothing happens any more. -/
theorem WroteUpTo.step_idle {k : Nat} {u : State} (h : WroteUpTo s k u) (ho : u.op = .IDLE) : step u = .next u := by
  obtain ⟨hr', hc', hs'⟩ := h.inputs hr hc hscript
  exact (step_script_nil hs').trans (clockEdge_hold (select_idle_none hr' ho hc'))

theorem WroteUpTo.step {k : Nat} {u v : State} (h : WroteUpTo s k u) (hstep : step u = .next v) :
    WroteUpTo s (k + 1) v := by
  obtain ⟨hr', -, hs'⟩ := h.inputs hr hc hscript
  have hidle := h.step_idle hr hc hscript
  obtain ⟨idx, pend, phase, o, out, hu, hop, hlen⟩ := h
  have hrefl : WroteUpTo s (k + 1) u := ⟨idx, pend, phase, o, out, hu, hop, hlen.trans (Nat.le_succ _)⟩
  rcases hop with rfl | rfl
  · have ho : u.op = .ENC := by rw [hu]
    have hedge : EdgeStep u v := edgeStep_of_clockEdge (step_script_nil hs' ▸ hstep)
    have hop := edgeStep_encoder_op ho hedge
    obtain ⟨-, rfl⟩ | ⟨-, b, idx', pend', phase', o', rfl⟩ := Encoder.edgeStep_encoder hr' ho hedge
    · exact hrefl
    · refine ⟨idx', pend', phase', o', out ++ [b], by rw [hu], hop, ?_⟩
      rw [List.length_append, List.length_singleton]
      omega
  · obtain rfl : u = v := Host.Outcome.next.inj ((hidle (by rw [hu])).symm.trans hstep)
    exact hrefl

theorem wroteUpTo_run {j k : Nat} {u v : State} (h : WroteUpTo s j u) (hrun : run k u = .next v) :
    WroteUpTo s (j + k) v := by
  induction k generalizing j u with
  | zero =>
    cases hrun
    exact h
  | succ k ih =>
    obtain ⟨x, hstep, hrest⟩ := run_succ_cases hrun
    rw [← Nat.add_assoc, Nat.add_right_comm]
    exact ih (h.step hr hc hscript hstep) hrest

end Quiet

/-- A call that writes as many bytes as it takes steps is in progress before the last one: an idle block writes nothing. -/
theorem busy_before_last {s t : State} {k : Nat} (hr : s.rst = false) (hc : s.cmd = none) (hscript : s.script = [])
    (ho : s.op = .ENC) (hrun : run k s = .next t) (htx : t.txq.length = s.txq.length + k) {j : Nat} (hj : j < k) :
    ∃ u, run j s = .next u ∧ u.op = .ENC := by
  obtain ⟨i, rfl⟩ := Nat.exists_eq_add_of_lt hj
  rw [Nat.add_assoc] at hrun
  obtain ⟨u, hu, hrest⟩ := run_split hrun
  have hstart : WroteUpTo s 0 s := ⟨_, _, _, _, _, rfl, .inl ho, le_rfl⟩
  have hwrote := wroteUpTo_run hr hc hscript hstart hu
  obtain ⟨_, _, _, o, out, hframe, hop, hlen⟩ := id hwrote
  refine ⟨u, hu, ?_⟩
  rcases hop with rfl | rfl
  · rw [hframe]
  · have hidle : step u = .next u := hwrote.step_idle hr hc hscript (by rw [hframe])
    obtain rfl : u = t := Host.Outcome.next.inj ((run_of_step_self hidle _).symm.trans hrest)
    rw [hframe] at htx
    simp only at htx
    omega

/-- Settles O46: an empty call ends with its acceptance; any other sends its frame, one byte a step, and touches encoder
registers and `txq` only. -/
theorem encodeCallOutput : Obligations.EncodeCallOutput := by
  intro s n hr ho hc hfit ht hscript w
  have haccept : step s = effect (.encode n) s := by
    rw [step_script_nil hscript, clockEdge_selected (Commands.select_commandStep hr ho hc hfit),
      Commands.commandStep_zero]
  obtain rfl | hn := Nat.eq_zero_or_pos n
  · refine ⟨⟨takeCommand s, run_succ haccept 0, ho, (List.append_nil _).symm, rfl, rfl, rfl, rfl, rfl, rfl, rfl⟩, ?_⟩
    intro j hpos hj
    exact absurd (hpos.trans hj) (Nat.not_succ_le_zero 0)
  · let started := startEncode n (takeCommand s)
    rw [effect, if_neg hn.ne'] at haccept
    obtain ⟨t, hrun, hidle, htx⟩ := run_encode_call hn hr ho hc hfit ht hscript
    rw [Nat.add_comm, run_succ haccept] at hrun
    have hstart : WroteUpTo started 0 started := ⟨_, _, _, _, _, rfl, .inl rfl, le_rfl⟩
    obtain ⟨_, _, _, _, _, hframe, -⟩ := wroteUpTo_run (s := started) hr rfl hscript hstart hrun
    refine ⟨⟨t, by rw [Nat.add_comm, run_succ haccept, hrun], hidle, htx, ?_⟩, fun j hpos hj => ?_⟩
    · rw [hframe]
      exact ⟨rfl, rfl, rfl, rfl, rfl, rfl, rfl⟩
    · obtain ⟨i, rfl⟩ := Nat.exists_eq_add_of_le' hpos
      rw [run_succ haccept]
      exact busy_before_last (s := started) hr rfl hscript rfl hrun (by rw [htx, List.length_append]; rfl) hj

end Sys2Proof.Proofs.EncodeCall

/-! R90, R99: a decode call at every boundary, however the bytes arrive. The bytes read so far give a reading; an edge
extends it by one byte, and of the other agents' moves only a host write of DB reaches what the reading determines. -/

namespace Sys2Proof.Proofs.Conditions

open Sys2Proof Sys2Proof.Machine Sys2Proof.Safety Sys2Proof.Laws Sys2Proof.Proofs.EarlierCalls Sys2Proof.Proofs.Turns
  Sys2Proof.Proofs.Invariants Sys2Proof.Proofs.Wire Sys2Proof.Proofs.DecodeCall

/-! ### One byte more -/

/-- The state `u` of a call whose destination buffer was `m` shows the reading `r`; its buffer does so too where `wd` holds,
that is where the host has not written it. -/
structure Shown (wd : Prop) (m : Mem) (r : Reading) (u : State) : Prop where
  shows : Shows r u
  filled : wd → u.DB = fill m (r.payload.take u.d_cap)

section Shown

variable {wd : Prop} {m : Mem} {r : Reading} {s t : State}

/-- The guarded store extends the payload of a reading between two tokens, stored or dropped. -/
theorem Shown.store {p : List Byte} {e : Bool} {v : Byte} (h : Shown wd m (between p e) s)
    (ha : append v s = .next t) : Shown wd m (between (p ++ [v]) e) t := by
  obtain ⟨⟨hlen, hovf, hmal, hstate, hop⟩, hfill⟩ := h
  have hlen : s.d_len = min p.length s.d_cap := hlen
  have hovf : s.OVF = decide (s.d_cap < p.length) := hovf
  have hlong : (p ++ [v]).length = p.length + 1 := by simp
  rcases append_cases ha with ⟨hroom, -, rfl⟩ | ⟨hfull, rfl⟩
  · have hcount : s.d_len = p.length := by omega
    refine ⟨⟨?_, ?_, hmal, hstate, hop⟩, fun hwd => ?_⟩
    · change s.d_len + 1 = min (p ++ [v]).length s.d_cap
      omega
    · change s.OVF = decide (s.d_cap < (p ++ [v]).length)
      rw [hovf, decide_eq_decide]
      omega
    · change s.DB.write s.d_len v = fill m ((p ++ [v]).take s.d_cap)
      have hfill : s.DB = fill m (p.take s.d_cap) := hfill hwd
      rw [List.take_of_length_le (by omega), fill_concat, hfill, List.take_of_length_le (by omega), hcount]
  · refine ⟨⟨?_, ?_, hmal, hstate, hop⟩, fun hwd => ?_⟩
    · change s.d_len = min (p ++ [v]).length s.d_cap
      omega
    · exact (decide_eq_true (show s.d_cap < (p ++ [v]).length by omega)).symm
    · change s.DB = fill m ((p ++ [v]).take s.d_cap)
      rw [List.take_append_of_le_length (by omega)]
      exact hfill hwd

/-- A storing step on the byte `c`: it reads that byte and stores, from `u`, what the reading of it appends. -/
theorem Shown.read {p : List Byte} {e : Bool} {v c : Byte} {u : State} (h : Shown wd m (between p e) u)
    (ha : append v u = .next t) (hcap : u.d_cap = s.d_cap) (hq : s.rxq = c :: u.rxq)
    (hread : r.read c = between (p ++ [v]) e) :
    t.d_cap = s.d_cap ∧ ∃ c, s.rxq = c :: t.rxq ∧ Shown wd m (r.read c) t := by
  have hshown := h.store ha
  obtain ⟨_, _, _, rfl⟩ := append_frame ha
  exact ⟨hcap, c, hq, hread ▸ hshown⟩

/-- R71: an edge of a call in progress waits or extends the reading by the oldest byte. -/
theorem Shown.edge (h : Shown wd m r s) (hr : s.rst = false) (hnot : r.ended = false) (hedge : EdgeStep s t) :
    t = s ∨ t.d_cap = s.d_cap ∧ ∃ c, s.rxq = c :: t.rxq ∧ Shown wd m (r.read c) t := by
  obtain ⟨p, pending, e, ended⟩ := r
  obtain rfl : ended = false := hnot
  obtain ⟨⟨hlen, hovf, hmal, hstate, hop⟩, hfill⟩ := id h
  have hop : s.op = .DEC := hop
  have hliteral (hd : s.d_state = .LITERAL) : pending = false := by
    cases pending with
    | false => rfl
    | true => cases hd.symm.trans hstate
  have hpending (hd : s.d_state = .PENDING_ESCAPE) : pending = true := by
    cases pending with
    | false => cases hd.symm.trans hstate
    | true => rfl
  have hback (q : List Byte) : Shown wd m (between p e) (enterState .LITERAL { s with rxq := q }) :=
    ⟨⟨hlen, hovf, hmal, rfl, hop⟩, hfill⟩
  cases hedge with
  | reset hrst => exact absurd (hr.symm.trans hrst) Bool.false_ne_true
  | hold => exact .inl rfl
  | encodeZero _ _ ho | encode _ _ _ ho | decode _ _ _ ho | encX2 _ _ ho | encClose _ _ ho | encEnd _ _ ho
  | encEsc _ _ ho | encLit _ _ _ ho => cases hop.symm.trans ho
  | decEnd q _ _ _ hd hq =>
    obtain rfl := hliteral hd
    exact .inr ⟨rfl, _, hq, ⟨hlen, hovf, hmal, rfl, rfl⟩, hfill⟩
  | decEsc q _ _ _ hd hq =>
    obtain rfl := hliteral hd
    exact .inr ⟨rfl, _, hq, ⟨hlen, hovf, hmal, rfl, hop⟩, hfill⟩
  | decLit c q _ _ _ _ hd hq hend hesc ha =>
    obtain rfl := hliteral hd
    have hnow : Shown wd m (between p e) { s with rxq := q } := ⟨⟨hlen, hovf, hmal, hstate, hop⟩, hfill⟩
    exact .inr (hnow.read ha rfl hq (read_other hend hesc p e))
  | decXend q _ _ _ _ hd hq ha =>
    obtain rfl := hpending hd
    exact .inr ((hback q).read ha rfl hq rfl)
  | decXesc q _ _ _ _ hd hq ha =>
    obtain rfl := hpending hd
    exact .inr ((hback q).read ha rfl hq rfl)
  | decXlit c q _ _ _ _ hd hq hend hesc ha =>
    obtain rfl := hpending hd
    have hmarked : Shown wd m (between p true) (setMAL (enterState .LITERAL { s with rxq := q })) :=
      ⟨⟨hlen, hovf, rfl, rfl, hop⟩, hfill⟩
    exact .inr (hmarked.read ha rfl hq (read_pending_other hend hesc p e))

theorem Shown.mono {wd' : Prop} (h : Shown wd m r s) (hwd : wd' → wd) : Shown wd' m r s :=
  ⟨h.shows, fun hw => h.filled (hwd hw)⟩

/-- What a reading determines, a move of another agent leaves alone, but for the contents of DB. -/
theorem Shown.move {e : EnvMove} (h : Shown wd m r s) (hmove : envMove e s = .next t)
    (hDB : wd → t.DB = s.DB) : t.d_cap = s.d_cap ∧ Shown wd m r t := by
  obtain ⟨_, _, _, _, _, _, _, rfl⟩ := envMove_frame hmove
  exact ⟨rfl, h.shows, fun hwd => (hDB hwd).trans (h.filled hwd)⟩

end Shown

/-! ### The call under any environment -/

/-- A move that neither drives reset nor loses bytes adds what it delivers to the received bytes. -/
theorem envMove_receives {m : EnvMove} {s t : State} (h : envMove m s = .next t) (hm : receiveTurn (.agent m) = true) :
    t.rxq = s.rxq ++ delivered [.agent m] ∧ (s.rst = false → t.rst = false) := by
  cases moveStep_of_envMove h with
  | deliver b => exact ⟨rfl, id⟩
  | loseReceived n => cases hm
  | setRst v => exact ⟨(List.append_nil _).symm, fun _ => by simpa [receiveTurn] using hm⟩
  | _ => exact ⟨(List.append_nil _).symm, id⟩

/-- DB is not written by the host in the turns `taken`. -/
def NoWriteDB (taken : List Turn) : Prop := ∀ i b, .agent (.writeDB i b) ∉ taken

theorem NoWriteDB.left {taken more : List Turn} (h : NoWriteDB (taken ++ more)) : NoWriteDB taken :=
  fun i b hb => h i b (List.mem_append_left _ hb)

/-- The call that began at `s` stands at `u` after the turns `taken` and has read `w`. -/
structure ReadSoFar (s : State) (taken : List Turn) (w : List Byte) (u : State) : Prop where
  received : s.rxq ++ delivered taken = w ++ u.rxq
  cap : u.d_cap = s.d_cap
  rst : u.rst = false
  shown : Shown (NoWriteDB taken) s.DB (w.foldl Reading.read .start) u

theorem delivered_append (l l' : List Turn) : delivered (l ++ l') = delivered l ++ delivered l' :=
  List.filterMap_append

/-- An edge up to the acceptance of a later command reads at most one byte more. -/
theorem ReadSoFar.edge {s u v : State} {taken : List Turn} {w : List Byte} (h : ReadSoFar s taken w u)
    (hC : u.op = .DEC ∨ u.cmd = none) (hedge : EdgeStep u v) : ∃ w', ReadSoFar s taken w' v := by
  obtain ⟨-, -, hrst, -⟩ := edgeStep_inputs hedge
  obtain ⟨-, -, -, -, hop⟩ := h.shown.shows
  cases hended : (w.foldl Reading.read .start).ended with
  | true =>
    have hidle : u.op = .IDLE := by rw [hop, hended]; rfl
    have hcmd : u.cmd = none := hC.resolve_left (by rw [hidle]; decide)
    obtain rfl | ⟨hr, -⟩ := edgeStep_idle hidle hcmd hedge
    · exact ⟨w, h⟩
    · exact absurd (h.rst.symm.trans hr) Bool.false_ne_true
  | false =>
    obtain rfl | ⟨hcap, c, hq, hshown⟩ := h.shown.edge h.rst hended hedge
    · exact ⟨w, h⟩
    · refine ⟨w ++ [c], ?_, hcap.trans h.cap, hrst.trans h.rst, ?_⟩
      · rw [h.received, hq, List.append_assoc, List.singleton_append]
      · rw [List.foldl_append]
        exact hshown

/-- Each turn up to the acceptance of a later command carries the call on. -/
theorem ReadSoFar.step {s u v : State} {taken : List Turn} {w : List Byte} (h : ReadSoFar s taken w u)
    (hturn : ∀ x ∈ u.script.take 1, receiveTurn x = true) (hC : u.op = .DEC ∨ u.cmd = none) (hstep : step u = .next v) :
    ∃ w', ReadSoFar s (taken ++ u.script.take 1) w' v := by
  have hshown := h.shown.mono (NoWriteDB.left (more := u.script.take 1))
  obtain ⟨htaken, hedge⟩ | ⟨m, htaken, hmove⟩ := step_turn hstep
  · have hnone : delivered (u.script.take 1) = [] := by rcases htaken with h | h <;> rw [h] <;> rfl
    have hnow : ReadSoFar s (taken ++ u.script.take 1) w (turnTaken u) :=
      ⟨by rw [delivered_append, hnone, List.append_nil]; exact h.received, h.cap, h.rst, hshown.shows, hshown.filled⟩
    exact hnow.edge hC hedge
  · rw [htaken] at hshown hturn ⊢
    obtain ⟨hreceived, hrst⟩ := envMove_receives hmove (hturn _ (List.mem_singleton_self _))
    have hDB : NoWriteDB (taken ++ [.agent m]) → v.DB = (turnTaken u).DB := fun hno =>
      envMove_keeps_DB hmove fun i b hb => hno i b (by simp [hb])
    obtain ⟨hcap, hshown'⟩ := Shown.move (s := turnTaken u) ⟨hshown.shows, hshown.filled⟩ hmove hDB
    refine ⟨w, ?_, hcap.trans h.cap, hrst h.rst, hshown'⟩
    rw [delivered_append, hreceived, ← List.append_assoc, h.received, List.append_assoc]
    rfl

/-- Nothing has been read at the start of the call. -/
theorem readSoFar_start {s : State} (hr : s.rst = false) (ho : s.op = .DEC) (hd : s.d_state = .LITERAL)
    (hlen : s.d_len = 0) (hovf : s.OVF = false) (hmal : s.MAL = false) : ReadSoFar s [] [] s :=
  ⟨List.append_nil _, rfl, hr, ⟨hlen.trans (Nat.zero_min _).symm, hovf, hmal, hd, ho⟩,
    fun _ => by simp [Reading.start, fill_nil]⟩

/-- The invariant of the call at a boundary, where the turns taken neither drive reset nor lose bytes. -/
def Precise (s : State) (taken : List Turn) (u : State) : Prop :=
  (∀ x ∈ taken, receiveTurn x = true) → ∃ w, ReadSoFar s taken w u

theorem precise_step {s : State} (taken : List Turn) (u v : State) (h : Precise s taken u)
    (hC : u.op = .DEC ∨ u.cmd = none) (hstep : step u = .next v) : Precise s (taken ++ u.script.take 1) v := by
  intro hall
  obtain ⟨w, hread⟩ := h fun x hx => hall x (List.mem_append_left _ hx)
  exact hread.step (fun x hx => hall x (List.mem_append_right _ hx)) hC hstep

/-- Settles O49: the bytes read by the boundary reached are shown, and DB is what a buffer filled with them is. -/
theorem conditionsArePrecise : Obligations.ConditionsArePrecise := by
  intro s t k hr ho hd hlen hovf hmal hturns hC hrun
  have hstart : Precise s [] s := fun _ => ⟨[], readSoFar_start hr ho hd hlen hovf hmal⟩
  obtain ⟨w, h⟩ := run_history precise_step hC hstart hrun hturns
  refine ⟨w, h.received, h.cap, h.shown.shows, fun hwf hno => ?_⟩
  let filled := afterReading (w.foldl Reading.read .start) [] s
  obtain ⟨hlen, -⟩ := h.shown.shows
  have hcount : t.d_len = filled.d_len := by rw [hlen, h.cap]; rfl
  have hDB : t.DB = filled.DB := by rw [h.shown.filled hno, h.cap]; rfl
  rw [hcount, hDB]
  exact contents_afterReading hwf (w.foldl Reading.read .start) []

end Sys2Proof.Proofs.Conditions

/-! R55, R57, and the model's own choices about dispatch (logs 8 to 10, 12): when each instruction is the step taken, what a
word before the framer selects, how an instruction is placed, and where the machine stops. -/

namespace Sys2Proof.Proofs.Dispatch

open Sys2Proof Sys2Proof.Machine Sys2Proof.Safety Sys2Proof.Laws Sys2Proof.Proofs.Encoder Sys2Proof.Proofs.Decoder

/-! ### The enabling conditions -/

/-- A ready encoder out of reset has the payload byte `b` to take. -/
def TakesByte (s : State) (b : Byte) : Prop :=
  (s.rst = false ∧ s.op = .ENC ∧ txReady s = true) ∧ s.e_phase = .E_FETCH ∧ s.e_idx < s.e_len ∧
    plRead s s.e_idx = some b

/-- A decode call in state `d`, out of reset, has the wire byte `c` to read. -/
def ReadsByte (s : State) (d : DState) (c : Byte) : Prop :=
  s.rst = false ∧ s.op = .DEC ∧ s.d_state = d ∧ s.rxq.head? = some c

/-- The "Enabled when" and "Encoding" lines of each instruction (30_encoding.md section 7). -/
def Enabled (s : State) : Instr → Prop
  | .encode n => s.rst = false ∧ s.op = .IDLE ∧ s.cmd = some ⟨0, n⟩ ∧ n < 2 ^ s.lw
  | .decode n => s.rst = false ∧ s.op = .IDLE ∧ s.cmd = some ⟨1, n⟩ ∧ n < 2 ^ s.lw
  | .encX2 => (s.rst = false ∧ s.op = .ENC ∧ txReady s = true) ∧ s.e_phase = .E_ESC2
  | .encClose => (s.rst = false ∧ s.op = .ENC ∧ txReady s = true) ∧ s.e_phase = .E_FETCH ∧ s.e_idx = s.e_len
  | .encEnd => TakesByte s Config.END
  | .encEsc => TakesByte s Config.ESC
  | .encLit b => TakesByte s b ∧ b ≠ Config.END ∧ b ≠ Config.ESC
  | .decEnd => ReadsByte s .LITERAL Config.END
  | .decEsc => ReadsByte s .LITERAL Config.ESC
  | .decLit c => ReadsByte s .LITERAL c ∧ c ≠ Config.END ∧ c ≠ Config.ESC
  | .decXend => ReadsByte s .PENDING_ESCAPE Config.ESC_END
  | .decXesc => ReadsByte s .PENDING_ESCAPE Config.ESC_ESC
  | .decXlit c => ReadsByte s .PENDING_ESCAPE c ∧ c ≠ Config.ESC_END ∧ c ≠ Config.ESC_ESC

section Enabled

variable {s : State}

theorem enabled_decodePayload {b : Byte} (h : TakesByte s b) : Enabled s (decodePayload b) := by
  unfold decodePayload
  split_ifs with hend hesc
  · subst hend; exact h
  · subst hesc; exact h
  · exact ⟨h, hend, hesc⟩

theorem enabled_decodeLiteral {c : Byte} (h : ReadsByte s .LITERAL c) : Enabled s (decodeLiteral c) := by
  unfold decodeLiteral
  split_ifs with hend hesc
  · subst hend; exact h
  · subst hesc; exact h
  · exact ⟨h, hend, hesc⟩

theorem enabled_decodePending {c : Byte} (h : ReadsByte s .PENDING_ESCAPE c) : Enabled s (decodePending c) := by
  unfold decodePending
  split_ifs with hend hesc
  · subst hend; exact h
  · subst hesc; exact h
  · exact ⟨h, hend, hesc⟩

theorem enabled_of_select {i : Instr} (h : select s = .run i) : Enabled s i := by
  obtain ⟨hr, ⟨ho, ⟨op, n⟩, hc, hfit, rfl⟩ | ⟨ho, ht, hp, rfl⟩ | ⟨ho, ht, hp, hi, rfl⟩ | ⟨ho, ht, hp, hi, hx, rfl⟩ |
    ⟨ho, c, q, hq, ⟨hd, rfl⟩ | ⟨hd, rfl⟩⟩⟩ := select_run_cases h
  · rcases (show ∀ b : BitVec 1, b = 0 ∨ b = 1 by decide) op with rfl | rfl <;> exact ⟨hr, ho, hc, hfit⟩
  · exact ⟨⟨hr, ho, ht⟩, hp⟩
  · exact ⟨⟨hr, ho, ht⟩, hp, hi⟩
  · exact enabled_decodePayload ⟨⟨hr, ho, ht⟩, hp, hi, plRead_eq_some.2 ⟨hx, rfl⟩⟩
  · exact enabled_decodeLiteral ⟨hr, ho, hd, by rw [hq, List.head?_cons]⟩
  · exact enabled_decodePending ⟨hr, ho, hd, by rw [hq, List.head?_cons]⟩

theorem TakesByte.select {b : Byte} (h : TakesByte s b) : select s = .run (decodePayload b) := by
  obtain ⟨⟨hr, ho, ht⟩, hp, hi, hb⟩ := h
  exact select_enc_payload hr ho ht hp hi hb

theorem ReadsByte.select_literal {c : Byte} (h : ReadsByte s .LITERAL c) : select s = .run (decodeLiteral c) := by
  obtain ⟨hr, ho, hd, hq⟩ := h
  obtain ⟨q, hq⟩ := List.head?_eq_some_iff.1 hq
  exact select_dec_literal hr ho hq hd

theorem ReadsByte.select_pending {c : Byte} (h : ReadsByte s .PENDING_ESCAPE c) :
    select s = .run (decodePending c) := by
  obtain ⟨hr, ho, hd, hq⟩ := h
  obtain ⟨q, hq⟩ := List.head?_eq_some_iff.1 hq
  exact select_dec_pending hr ho hq hd

theorem select_of_enabled {i : Instr} (h : Enabled s i) : select s = .run i := by
  cases i with
  | encode n | decode n =>
    obtain ⟨hr, ho, hc, hfit⟩ := h
    exact Commands.select_commandStep hr ho hc hfit
  | encX2 =>
    obtain ⟨⟨hr, ho, ht⟩, hp⟩ := h
    exact select_enc_x2 hr ho ht hp
  | encClose =>
    obtain ⟨⟨hr, ho, ht⟩, hp, hi⟩ := h
    exact select_enc_close hr ho ht hp hi
  | encEnd | encEsc => exact TakesByte.select h
  | encLit b =>
    obtain ⟨hb, hend, hesc⟩ := h
    exact decodePayload_other hend hesc ▸ hb.select
  | decEnd | decEsc => exact ReadsByte.select_literal h
  | decLit c =>
    obtain ⟨hc, hend, hesc⟩ := h
    exact decodeLiteral_other hend hesc ▸ hc.select_literal
  | decXend | decXesc => exact ReadsByte.select_pending h
  | decXlit c =>
    obtain ⟨hc, hend, hesc⟩ := h
    exact decodePending_other hend hesc ▸ hc.select_pending

/-- R57: an instruction is the step taken exactly when it is enabled. -/
theorem select_run_iff (i : Instr) : select s = .run i ↔ Enabled s i := ⟨enabled_of_select, select_of_enabled⟩

end Enabled

/-- Settles O7: the thirteen conditions are those of `Enabled`. -/
theorem instructionsEnabledExactlyWhen : Obligations.InstructionsEnabledExactlyWhen := by
  intro s
  exact ⟨fun n => select_run_iff (.encode n), fun n => select_run_iff (.decode n), select_run_iff .encX2,
    select_run_iff .encClose, select_run_iff .encEnd, select_run_iff .encEsc, fun b => select_run_iff (.encLit b),
    select_run_iff .decEnd, select_run_iff .decEsc, fun c => select_run_iff (.decLit c), select_run_iff .decXend,
    select_run_iff .decXesc, fun c => select_run_iff (.decXlit c)⟩

/-! ### The word before the framer -/

theorem fetch_of_ne_esc2 {s : State} (h : s.e_phase ≠ .E_ESC2) : s.e_phase = .E_FETCH := by
  cases hp : s.e_phase with
  | E_FETCH => rfl
  | E_ESC2 => exact absurd hp h

/-- R55: dispatch selects what the word that stands before the framer selects. -/
theorem select_of_wordAt {s : State} {ctx : Context} {w : Nat} (h : wordAt s = some (ctx, w)) :
    select s = selectWord s.lw ctx w := by
  unfold wordAt at h
  split at h
  · cases h
  next hr =>
    rw [select, if_neg hr]
    cases ho : s.op with
    | IDLE =>
      simp only [ho, Option.map_eq_some_iff] at h
      obtain ⟨c, hc, heq⟩ := h
      cases heq
      simp [selectCommand, commandWord, hc]
    | ENC =>
      simp only [ho] at h
      split_ifs at h with ht hp hi hlt
      · cases h
        simp [selectEncoder, ht, hp]
      · have hfetch := fetch_of_ne_esc2 hp
        cases h
        simp [selectEncoder, ht, hfetch, hi]
      · have hfetch := fetch_of_ne_esc2 hp
        obtain ⟨b, hb, heq⟩ := Option.map_eq_some_iff.1 h
        cases heq
        simp [selectEncoder, payloadByte, ht, hfetch, hi, hlt, hb]
    | DEC =>
      simp only [ho, Option.bind_eq_some_iff] at h
      obtain ⟨c, hc, hword⟩ := h
      cases hd : s.d_state <;> rw [hd] at hword <;> cases hword <;> simp [selectDecoder, wireByte_eq, hc, hd]

/-- Settles O39: the step is the clock edge, and the edge runs what the word decodes to. -/
theorem stepRunsDecodedInstruction : Obligations.StepRunsDecodedInstruction := by
  have hrun {s : State} {ctx : Context} {w : Nat} {i : Instr} (hw : wordAt s = some (ctx, w))
      (hi : decode s.lw ctx w = .ok i) : select s = .run i := by
    rw [select_of_wordAt hw, selectWord, hi]
  intro s
  refine ⟨fun hs => ⟨step_script_nil hs, fun ctx w i hw hi => ⟨hrun hw hi, ?_⟩⟩, fun rest hs =>
    ⟨step_script_edge hs, fun ctx w i hw hi => ?_⟩⟩
  · rw [step_script_nil hs, clockEdge_run (hrun hw hi)]
  · rw [step_script_edge hs, clockEdge_run (hrun (s := { s with script := rest }) hw hi)]

/-! ### Placing an instruction (log 12) -/

/-- The byte placed is the one at the cursor, moved to index 0 where the cursor stands outside the payload. -/
theorem takesByte_placePayload {s : State} (hwf : s.PL.wf = true) (b : Byte) : TakesByte (placePayload b s) b := by
  unfold placePayload
  split_ifs with h
  · exact ⟨⟨rfl, rfl, rfl⟩, rfl, h.1, plRead_eq_some.2 ⟨h.2, read_write_same hwf _ b⟩⟩
  · exact ⟨⟨rfl, rfl, rfl⟩, rfl, Nat.one_pos, plRead_eq_some.2 ⟨Nat.two_pow_pos s.lw, read_write_same hwf 0 b⟩⟩

theorem readsByte_placeWire (d : DState) (c : Byte) (s : State) : ReadsByte (placeWire d c s) d c :=
  ⟨rfl, rfl, rfl, rfl⟩

theorem enabled_place {i : Instr} {s : State} (hi : wellFormed s.lw i = true) (hwf : s.PL.wf = true) :
    Enabled (place i s) i := by
  cases i with
  | encode n | decode n => exact ⟨rfl, rfl, rfl, of_decide_eq_true hi⟩
  | encX2 => exact ⟨⟨rfl, rfl, rfl⟩, rfl⟩
  | encClose => exact ⟨⟨rfl, rfl, rfl⟩, rfl, rfl⟩
  | encEnd | encEsc => exact takesByte_placePayload hwf _
  | encLit b => exact ⟨takesByte_placePayload hwf b, of_decide_eq_true hi⟩
  | decEnd | decEsc | decXend | decXesc => exact readsByte_placeWire _ _ s
  | decLit c | decXlit c => exact ⟨readsByte_placeWire _ c s, of_decide_eq_true hi⟩

theorem place_script (i : Instr) (s : State) : (place i s).script = [] := by
  cases i with
  | encEnd | encEsc | encLit =>
    simp only [place, placePayload]
    split_ifs <;> rfl
  | _ => rfl

/-- Settles O54: the placed instruction is enabled, and no turn is listed. -/
theorem placedInstructionIsNext : Obligations.PlacedInstructionIsNext := by
  intro i s hi hwf
  have hsel := select_of_enabled (enabled_place hi hwf)
  exact ⟨hsel, by rw [step_script_nil (place_script i s), clockEdge_run hsel]⟩

/-! ### Steps without a meaning, and stops (logs 8 to 10) -/

/-- Settles O55: every meaning has the guard of `whenSelected`. -/
theorem unselectedInstructionChangesNothing : Obligations.UnselectedInstructionChangesNothing := by
  intro i s h
  cases i with
  | _ => exact whenSelected_other h

/-- Settles O57: what dispatch selects in each of the four states. -/
theorem stopsOutsideTheRules : Obligations.StopsOutsideTheRules := by
  intro s hr
  refine ⟨fun ho hd hrx => ?_, fun ho ht hp hi => ?_, fun ho ht hp hi hx => ?_, fun c ho hc hwide => ?_⟩
  · have hsel : select s = .noRule .decoderInDone := by
      cases hq : s.rxq with
      | nil => simp [rxAvail, hq] at hrx
      | cons c q => simp [select, selectDecoder, wireByte_eq, hr, ho, hq, hd]
    rw [clockEdge, hsel]
  · have hsel : select s = .noRule .cursorPastLength := by
      simp [select, selectEncoder, hr, ho, ht, hp, hi.ne', hi.not_gt]
    rw [clockEdge, hsel]
  · have hsel : select s = .noRule .noSuchIndex := by
      simp [select, selectEncoder, payloadByte, plRead, hr, ho, ht, hp, hi.ne, hi, hx.not_gt]
    rw [clockEdge, hsel]
  · have hsel : select s = .badWord (.tooWide .command) := by
      rw [select_idle hr ho hc, if_neg hwide.not_gt]
    rw [clockEdge, hsel]

end Sys2Proof.Proofs.Dispatch

/-! R19, R28, R40 to R42: the ports. A step is one transfer on the channel of the unit that `op` names, and a byte is stored
exactly when the write port of DB says so. -/

namespace Sys2Proof.Proofs.Ports

open Sys2Proof Sys2Proof.Machine Sys2Proof.Safety Sys2Proof.Laws

/-! ### Transfers -/

section Transfers

variable {s t : State}

theorem cmdTransfer_iff : cmdTransfer s = true ↔ s.rst = false ∧ s.op = .IDLE ∧ s.cmd ≠ none := by
  simp only [cmdTransfer, cmd_valid, cmd_ready, Bool.and_eq_true, Bool.not_eq_true', beq_iff_eq,
    Option.isSome_iff_ne_none]
  tauto

theorem rxTransfer_iff : rxTransfer s = true ↔ s.rst = false ∧ s.op = .DEC ∧ s.rxq ≠ [] := by
  simp only [rxTransfer, rx_valid, rx_ready, rxAvail, Bool.and_eq_true, Bool.not_eq_true', beq_iff_eq,
    List.isEmpty_eq_false_iff]
  tauto

theorem txTransfer_iff : txTransfer s = true ↔ s.rst = false ∧ s.op = .ENC ∧ s.tx_ready = true := by
  simp [txTransfer, tx_valid, txReady, and_assoc]

/-- Some channel has a transfer. -/
def AnyTransfer (s : State) : Prop := cmdTransfer s = true ∨ rxTransfer s = true ∨ txTransfer s = true

theorem anyTransfer_of_run {i : Instr} (h : select s = .run i) : AnyTransfer s := by
  obtain ⟨hr, ⟨ho, c, hc, -⟩ | ⟨ho, ht, -⟩ | ⟨ho, ht, -⟩ | ⟨ho, ht, -⟩ | ⟨ho, c, q, hq, -⟩⟩ := select_run_cases h
  · exact .inl (cmdTransfer_iff.2 ⟨hr, ho, by simp [hc]⟩)
  · exact .inr (.inr (txTransfer_iff.2 ⟨hr, ho, ht⟩))
  · exact .inr (.inr (txTransfer_iff.2 ⟨hr, ho, ht⟩))
  · exact .inr (.inr (txTransfer_iff.2 ⟨hr, ho, ht⟩))
  · exact .inr (.inl (rxTransfer_iff.2 ⟨hr, ho, by simp [hq]⟩))

theorem not_anyTransfer_of_hold (h : select s = .hold) : ¬AnyTransfer s := by
  obtain ⟨-, ⟨ho, hc⟩ | ⟨ho, ht⟩ | ⟨ho, hq⟩⟩ := select_hold_cases h <;>
    simp [AnyTransfer, cmdTransfer_iff, rxTransfer_iff, txTransfer_iff, *]

theorem not_anyTransfer_of_rst (h : s.rst = true) : ¬AnyTransfer s := by
  simp [AnyTransfer, cmdTransfer_iff, rxTransfer_iff, txTransfer_iff, h]

/-- R41, R57: an edge that answers a next state runs a step exactly when a channel has a transfer. -/
theorem run_iff_anyTransfer (h : clockEdge s = .next t) : (∃ i, select s = .run i) ↔ AnyTransfer s := by
  refine ⟨fun ⟨_, hi⟩ => anyTransfer_of_run hi, fun htransfer => ?_⟩
  cases hs : select s with
  | run i => exact ⟨i, rfl⟩
  | reset => exact absurd htransfer (not_anyTransfer_of_rst (select_eq_reset.1 hs))
  | hold => exact absurd htransfer (not_anyTransfer_of_hold hs)
  | noRule | badWord =>
    rw [clockEdge, hs] at h
    cases h

/-- Without a reset and a transfer nothing changes. -/
theorem eq_of_no_transfer (h : clockEdge s = .next t) (hr : s.rst = false) (hno : ¬AnyTransfer s) : t = s := by
  cases hs : select s with
  | run i => exact absurd (anyTransfer_of_run hs) hno
  | reset => exact absurd (hr.symm.trans (select_eq_reset.1 hs)) Bool.false_ne_true
  | hold => exact (Host.Outcome.next.inj ((clockEdge_hold hs).symm.trans h)).symm
  | noRule | badWord =>
    rw [clockEdge, hs] at h
    cases h

/-- R42: an encoder step sends `tx_data`. -/
theorem edgeStep_sends (h : EdgeStep s t) :
    t.txq = if txTransfer s then s.txq ++ [tx_data s] else s.txq := by
  have hsent {b : Byte} (hr : s.rst = false) (ho : s.op = .ENC) (ht : s.tx_ready = true) (hb : tx_data s = b) :
      s.txq ++ [b] = if txTransfer s then s.txq ++ [tx_data s] else s.txq := by
    rw [if_pos (txTransfer_iff.2 ⟨hr, ho, ht⟩), hb]
  have hnone (hno : ¬(s.rst = false ∧ s.op = .ENC ∧ s.tx_ready = true)) :
      s.txq = if txTransfer s then s.txq ++ [tx_data s] else s.txq := by
    rw [if_neg (txTransfer_iff.not.2 hno)]
  have hother {o : Op} (ho : s.op = o) (hne : o ≠ .ENC) : ¬(s.rst = false ∧ s.op = .ENC ∧ s.tx_ready = true) :=
    fun henc => hne (ho.symm.trans henc.2.1)
  cases h with
  | reset hr => exact hnone (by simp [hr])
  | hold _ hs => exact hnone fun henc => not_anyTransfer_of_hold hs (.inr (.inr (txTransfer_iff.2 henc)))
  | encodeZero _ _ ho | encode _ _ _ ho | decode _ _ _ ho => exact hnone (hother ho (by decide))
  | encX2 hr _ ho ht hp => exact hsent hr ho ht (by simp [tx_data, hp])
  | encClose hr _ ho ht hp hi => exact hsent hr ho ht (by simp [tx_data, hp, hi])
  | encEnd hr _ ho ht hp hi _ hb => exact hsent hr ho ht (by simp [tx_data, pl_data, pl_addr, hp, hi.ne, hb])
  | encEsc hr _ ho ht hp hi _ hb => exact hsent hr ho ht (by simp [tx_data, pl_data, pl_addr, hp, hi.ne, hb])
  | encLit b hr _ ho ht hp hi _ hb hend hesc =>
    exact hsent hr ho ht (by simp [tx_data, pl_data, pl_addr, hp, hi.ne, hb, hend, hesc])
  | decEnd _ _ _ ho | decEsc _ _ _ ho => exact hnone (hother ho (by decide))
  | decLit _ _ _ _ _ ho _ _ _ _ ha | decXend _ _ _ _ ho _ _ ha | decXesc _ _ _ _ ho _ _ ha
  | decXlit _ _ _ _ _ ho _ _ _ _ ha =>
    exact (Commands.append_keeps_channels ha).2.trans (hnone (hother ho (by decide)))

theorem eq_of_reset (hr : s.rst = true) (h : clockEdge s = .next t) : t = resetRegisters s :=
  (Host.Outcome.next.inj ((clockEdge_rst hr).symm.trans h)).symm

/-- R41: a decoder step takes the head of `rxq`, and nothing else reads it. -/
theorem clockEdge_receives (h : clockEdge s = .next t) : t.rxq = if rxTransfer s then s.rxq.tail else s.rxq := by
  cases hr : s.rst with
  | true =>
    obtain rfl := eq_of_reset hr h
    rw [if_neg (by simp [rxTransfer_iff, hr])]
    rfl
  | false =>
    have hedge := edgeStep_of_clockEdge h
    obtain ⟨hidle, henc, -⟩ := Commands.edgeStep_channels hr hedge
    cases ho : s.op with
    | IDLE => rw [if_neg (by simp [rxTransfer_iff, ho]), (hidle ho).1]
    | ENC => rw [if_neg (by simp [rxTransfer_iff, ho]), (henc ho).2]
    | DEC =>
      obtain ⟨hq, rfl⟩ | ⟨c, hq⟩ := Decoder.edgeStep_decoder hr ho hedge
      · rw [if_neg (by simp [rxTransfer_iff, hq])]
      · rw [if_pos (rxTransfer_iff.2 ⟨hr, ho, by simp [hq]⟩), hq, List.tail_cons]

/-- Without a transfer on its channel a presented command stays. -/
theorem clockEdge_keeps_command (h : clockEdge s = .next t) (hno : cmdTransfer s = false) : t.cmd = s.cmd := by
  have hno : ¬(s.rst = false ∧ s.op = .IDLE ∧ s.cmd ≠ none) := fun hall =>
    Bool.false_ne_true (hno.symm.trans (cmdTransfer_iff.2 hall))
  cases hr : s.rst with
  | true =>
    obtain rfl := eq_of_reset hr h
    rfl
  | false =>
    have hedge := edgeStep_of_clockEdge h
    obtain ⟨-, henc, hdec⟩ := Commands.edgeStep_channels hr hedge
    cases ho : s.op with
    | IDLE =>
      have hc : s.cmd = none := by
        by_contra hc
        exact hno ⟨hr, ho, hc⟩
      obtain rfl | ⟨hrst, -⟩ := Turns.edgeStep_idle ho hc hedge
      · rfl
      · exact absurd (hr.symm.trans hrst) Bool.false_ne_true
    | ENC => exact (henc ho).1
    | DEC => exact (hdec ho).1

/-- Log 4: an accepted command is taken off its channel. -/
theorem edgeStep_takes_command (h : EdgeStep s t) (htransfer : cmdTransfer s = true) : t.cmd = none := by
  obtain ⟨hr, ho, -⟩ := cmdTransfer_iff.1 htransfer
  cases h with
  | reset hrst => exact absurd (hr.symm.trans hrst) Bool.false_ne_true
  | hold _ hs => exact absurd (.inl htransfer) (not_anyTransfer_of_hold hs)
  | encodeZero | encode | decode => rfl
  | encX2 _ _ hop | encClose _ _ hop | encEnd _ _ hop | encEsc _ _ hop | encLit _ _ _ hop | decEnd _ _ _ hop
  | decEsc _ _ _ hop | decLit _ _ _ _ _ hop | decXend _ _ _ _ hop | decXesc _ _ _ _ hop | decXlit _ _ _ _ _ hop =>
    cases ho.symm.trans hop

end Transfers

/-- Settles O56: the three rules that accept a command take it off. -/
theorem acceptedCommandLeavesChannel : Obligations.AcceptedCommandLeavesChannel :=
  fun _ _ htransfer h => edgeStep_takes_command (edgeStep_of_clockEdge h) htransfer

/-- Settles O14: channel by channel, and a step is a transfer on one of them. -/
theorem channelsTransferByHandshake : Obligations.ChannelsTransferByHandshake := by
  intro s t h
  refine ⟨edgeStep_sends (edgeStep_of_clockEdge h), clockEdge_receives h, clockEdge_keeps_command h, ?_,
    fun hr hcmd hrx htx => eq_of_no_transfer h hr ?_⟩
  · rw [run_iff_anyTransfer h, AnyTransfer, Bool.or_eq_true, Bool.or_eq_true, or_assoc]
  · simp [AnyTransfer, hcmd, hrx, htx]

/-! ### The write port of DB -/

section Write

variable {s t : State}

theorem db_we_iff : db_we s = true ↔
    s.rst = false ∧ s.op = .DEC ∧ s.rxq ≠ [] ∧ s.d_len < s.d_cap ∧ storesByte s = true := by
  simp only [db_we, rx_valid, rxAvail, Bool.and_eq_true, Bool.not_eq_true', beq_iff_eq, List.isEmpty_eq_false_iff,
    decide_eq_true_iff, and_assoc]

/-- The write port of DB is idle and DB stays, or DB is written as the port says, below the capacity. -/
def FollowsPort (s t : State) : Prop :=
  (db_we s = false ∧ t.DB = s.DB) ∨
    ∃ v, db_we s = true ∧ db_data s = some v ∧ t.DB = s.DB.write s.d_len v

theorem db_we_eq_false (h : ¬(s.rst = false ∧ s.op = .DEC ∧ s.rxq ≠ [] ∧ s.d_len < s.d_cap ∧ storesByte s = true)) :
    db_we s = false := by
  rwa [← Bool.not_eq_true, db_we_iff]

/-- The guarded store, from a state `u` with the count, the capacity and the buffer of `s`, writes the byte on the port. -/
theorem followsPort_append {v : Byte} {u : State} (ha : append v u = .next t) (hlen : u.d_len = s.d_len)
    (hcap : u.d_cap = s.d_cap) (hDB : u.DB = s.DB) (hr : s.rst = false) (ho : s.op = .DEC) (hq : s.rxq ≠ [])
    (hstores : storesByte s = true) (hdata : db_data s = some v) : FollowsPort s t := by
  rcases append_cases ha with ⟨hroom, -, rfl⟩ | ⟨hfull, rfl⟩
  · refine .inr ⟨v, db_we_iff.2 ⟨hr, ho, hq, by rwa [← hlen, ← hcap], hstores⟩, hdata, ?_⟩
    rw [← hDB, ← hlen]
  · exact .inl ⟨db_we_eq_false (by omega), hDB⟩

theorem followsPort_edge (h : EdgeStep s t) : FollowsPort s t := by
  have hother {o : Op} (ho : s.op = o) (hne : o ≠ .DEC) : db_we s = false :=
    db_we_eq_false fun hall => hne (ho.symm.trans hall.2.1)
  cases h with
  | reset hr => exact .inl ⟨db_we_eq_false (by simp [hr]), rfl⟩
  | hold _ hs =>
    obtain ⟨-, ⟨ho, -⟩ | ⟨ho, -⟩ | ⟨-, hq⟩⟩ := select_hold_cases hs
    · exact .inl ⟨hother ho (by decide), rfl⟩
    · exact .inl ⟨hother ho (by decide), rfl⟩
    · exact .inl ⟨db_we_eq_false (by simp [hq]), rfl⟩
  | encodeZero _ _ ho | encode _ _ _ ho | decode _ _ _ ho | encX2 _ _ ho | encClose _ _ ho | encEnd _ _ ho
  | encEsc _ _ ho | encLit _ _ _ ho => exact .inl ⟨hother ho (by decide), rfl⟩
  | decEnd q _ _ _ hd hq | decEsc q _ _ _ hd hq =>
    exact .inl ⟨db_we_eq_false (by simp [storesByte, rx_data, hd, hq]), rfl⟩
  | decLit c q _ hr _ ho hd hq hend hesc ha =>
    exact followsPort_append ha rfl rfl rfl hr ho (by simp [hq]) (by simp [storesByte, rx_data, hd, hq, hend, hesc])
      (by simp [db_data, rx_data, hd, hq])
  | decXend q _ hr _ ho hd hq ha | decXesc q _ hr _ ho hd hq ha =>
    exact followsPort_append ha rfl rfl rfl hr ho (by simp [hq]) (by simp [storesByte, hd])
      (by simp [db_data, rx_data, hd, hq])
  | decXlit c q _ hr _ ho hd hq hend hesc ha =>
    exact followsPort_append ha rfl rfl rfl hr ho (by simp [hq]) (by simp [storesByte, hd])
      (by simp [db_data, rx_data, hd, hq, hend, hesc])

end Write

/-- Settles O15: an edge leaves DB alone or is one write as the port says. -/
theorem destinationWritesFollowPort : Obligations.DestinationWritesFollowPort := by
  intro s t hwf h
  obtain ⟨hno, hDB⟩ | ⟨v, hwe, hdata, hDB⟩ := followsPort_edge (edgeStep_of_clockEdge h)
  · exact ⟨fun hwe => absurd (hno.symm.trans hwe) Bool.false_ne_true, fun a _ => by rw [hDB]⟩
  · obtain ⟨-, -, -, hroom, -⟩ := db_we_iff.1 hwe
    refine ⟨fun _ => ⟨hroom, ?_⟩, fun a ha => ?_⟩
    · rw [hdata, hDB, db_addr, read_write_same hwf]
    · have hne : a ≠ s.d_len := ha.resolve_left (by rw [hwe]; decide)
      rw [hDB, read_write_other _ _ hne]

/-! ### The level outputs -/

/-- Settles O16: each output is the register that R19 names. -/
theorem statusOutputs : Obligations.StatusOutputs := by
  intro s
  refine ⟨?_, ?_, by simp [busy], by simp [done], rfl, rfl, rfl⟩
  · rw [status, BitVec.getLsbD_append]; simp
  · rw [status, BitVec.getLsbD_append]; simp

/-- Settles O1: the registers of the reset state, and the outputs computed from them. -/
theorem resetStateRegisters : Obligations.ResetStateRegisters :=
  ⟨rfl, rfl, rfl, rfl, rfl, rfl, rfl, rfl, rfl, rfl⟩

end Sys2Proof.Proofs.Ports

/-! R8, R17, R18, R61, R72, R82: which steps write a register or a flag, and what stays as it is. Each statement about an
edge is read off the inversion of the edge, rule by rule. -/

namespace Sys2Proof.Proofs.Registers

open Sys2Proof Sys2Proof.Machine Sys2Proof.Safety Sys2Proof.Laws Sys2Proof.Proofs.Turns

/-- Settles O17: the two branches of `append`. -/
theorem appendStoresOrRecordsOverflow : Obligations.AppendStoresOrRecordsOverflow :=
  fun _ v hrange hwf => Decoder.append_result v hrange hwf

/-- Settles O24: the step without a received byte is a hold. -/
theorem decoderHoldsForever : Obligations.DecoderHoldsForever := by
  intro s k hr ho hq hscript
  have hhold : step s = .next s := by rw [step_script_nil hscript, clockEdge_hold (select_dec_hold hr ho hq)]
  exact run_of_step_self hhold k

/-! ### Flags -/

section Edge

variable {s t : State}

/-- The guarded store leaves MAL alone, and OVF is 1 after it if it was 1 or the buffer was full. -/
theorem append_flags {v : Byte} (h : append v s = .next t) :
    (t.OVF = true ↔ s.OVF = true ∨ s.d_cap ≤ s.d_len) ∧ t.MAL = s.MAL := by
  rcases append_cases h with ⟨hroom, -, rfl⟩ | ⟨hfull, rfl⟩
  · exact ⟨by simp [hroom.not_ge], rfl⟩
  · exact ⟨by simp [hfull], rfl⟩

/-- The step taken is one of those listed. -/
def Writes (s : State) (l : List Mnemonic) : Prop := ∃ i, select s = .run i ∧ i.mnemonic ∈ l

theorem writes_iff {i : Instr} (h : select s = .run i) (l : List Mnemonic) : Writes s l ↔ i.mnemonic ∈ l := by
  simp [Writes, h]

theorem not_writes_of_hold (h : select s = .hold) (l : List Mnemonic) : ¬Writes s l := by
  simp [Writes, h]

/-- R17: OVF after an edge out of reset. -/
theorem edgeStep_OVF (hr : s.rst = false) (h : EdgeStep s t) :
    t.OVF = true ↔ (s.OVF = true ∧ ∀ cap, select s ≠ .run (.decode cap)) ∨
      (s.d_cap ≤ s.d_len ∧ Writes s [.DEC_LIT, .DEC_XEND, .DEC_XESC, .DEC_XLIT]) := by
  cases h with
  | reset hrst => exact absurd (hr.symm.trans hrst) Bool.false_ne_true
  | hold _ hs => simp [not_writes_of_hold hs, hs]
  | encodeZero _ hs | encode _ _ hs | decode _ _ hs | encX2 _ hs | encClose _ hs | encEnd _ hs | encEsc _ hs
  | encLit _ _ hs | decEnd _ _ hs | decEsc _ _ hs => simp [writes_iff hs, hs, Instr.mnemonic]
  | decLit _ _ _ _ hs _ _ _ _ _ ha | decXend _ _ _ hs _ _ _ ha | decXesc _ _ _ hs _ _ _ ha
  | decXlit _ _ _ _ hs _ _ _ _ _ ha => simp [writes_iff hs, hs, Instr.mnemonic, (append_flags ha).1]

/-- R18: MAL after an edge out of reset. -/
theorem edgeStep_MAL (hr : s.rst = false) (h : EdgeStep s t) :
    t.MAL = true ↔ (s.MAL = true ∧ ∀ cap, select s ≠ .run (.decode cap)) ∨ ∃ c, select s = .run (.decXlit c) := by
  cases h with
  | reset hrst => exact absurd (hr.symm.trans hrst) Bool.false_ne_true
  | hold _ hs | encodeZero _ hs | encode _ _ hs | decode _ _ hs | encX2 _ hs | encClose _ hs | encEnd _ hs
  | encEsc _ hs | encLit _ _ hs | decEnd _ _ hs | decEsc _ _ hs => simp [hs]
  | decLit _ _ _ _ hs _ _ _ _ _ ha | decXend _ _ _ hs _ _ _ ha | decXesc _ _ _ hs _ _ _ ha
  | decXlit _ _ _ _ hs _ _ _ _ _ ha => simp [hs, (append_flags ha).2]

end Edge

/-- Settles O25: the two flags, rule by rule. -/
theorem flagsChangeOnlyByRule : Obligations.FlagsChangeOnlyByRule :=
  fun _ _ hr h => ⟨edgeStep_OVF hr (edgeStep_of_clockEdge h), edgeStep_MAL hr (edgeStep_of_clockEdge h)⟩

/-! ### Registers -/

/-- An edge of an idle block out of reset, but for the acceptance of DECODE, leaves what a decode call has written. -/
theorem edgeStep_idle_keeps_result {s t : State} (hr : s.rst = false) (ho : s.op = .IDLE)
    (hno : ∀ cap, select s ≠ .run (.decode cap)) (h : EdgeStep s t) :
    t.d_state = s.d_state ∧ t.d_len = s.d_len ∧ t.OVF = s.OVF ∧ t.MAL = s.MAL ∧ t.DB = s.DB ∧ t.d_cap = s.d_cap := by
  cases h with
  | reset hrst => exact absurd (hr.symm.trans hrst) Bool.false_ne_true
  | decode cap _ hs => exact absurd hs (hno cap)
  | hold | encodeZero | encode => exact ⟨rfl, rfl, rfl, rfl, rfl, rfl⟩
  | encX2 _ _ hop | encClose _ _ hop | encEnd _ _ hop | encEsc _ _ hop | encLit _ _ _ hop | decEnd _ _ _ hop
  | decEsc _ _ _ hop | decLit _ _ _ _ _ hop | decXend _ _ _ _ hop | decXesc _ _ _ _ hop | decXlit _ _ _ _ _ hop =>
    cases ho.symm.trans hop

/-- Settles O26: an idle block writes none of it but by DECODE, and an encode call none at all. -/
theorem decodeResultStaysReadable : Obligations.DecodeResultStaysReadable := by
  intro s t hr hnot h hno
  have hkept : t.d_state = s.d_state ∧ t.d_len = s.d_len ∧ t.OVF = s.OVF ∧ t.MAL = s.MAL ∧ t.DB = s.DB ∧
      t.d_cap = s.d_cap := by
    cases ho : s.op with
    | IDLE => exact edgeStep_idle_keeps_result hr ho hno (edgeStep_of_clockEdge h)
    | ENC =>
      obtain ⟨hovf, hmal, hstate, hlen, hcap, hDB, -⟩ := Encoder.encoderTouchesNoDecoderState s t hr ho h
      exact ⟨hstate, hlen, hovf, hmal, hDB, hcap⟩
    | DEC => exact absurd ho hnot
  obtain ⟨hstate, hlen, hovf, hmal, hDB, hcap⟩ := hkept
  exact ⟨by rw [done, done, hstate], hlen, hovf, hmal, hDB, hcap⟩

/-- Settles O27: rule by rule, the registers that the rule writes. -/
theorem registersChangeOnlyByTheirWriters : Obligations.RegistersChangeOnlyByTheirWriters := by
  intro s t hr h writes
  have hwrites {i : Instr} (hi : select s = .run i) (l : List Mnemonic) : writes l ↔ i.mnemonic ∈ l := writes_iff hi l
  clear_value writes
  cases edgeStep_of_clockEdge h with
  | reset hrst => exact absurd (hr.symm.trans hrst) Bool.false_ne_true
  | hold => simp
  | encodeZero _ hs | encode _ _ hs | decode _ _ hs | encX2 _ hs | encClose _ hs | encEnd _ hs | encEsc _ hs
  | encLit _ _ hs | decEnd _ _ hs | decEsc _ _ hs => simp [hwrites hs, Instr.mnemonic]
  | decLit _ _ _ _ hs _ _ _ _ _ ha | decXend _ _ _ hs _ _ _ ha | decXesc _ _ _ hs _ _ _ ha
  | decXlit _ _ _ _ hs _ _ _ _ _ ha =>
    obtain ⟨_, _, _, rfl⟩ := append_frame ha
    simp [hwrites hs, Instr.mnemonic]

end Sys2Proof.Proofs.Registers

/-! R17, R18, R26, R27, R29, R30: what an edge cannot see. Two states in which dispatch selects the same step, and in which
every effect comes out the same up to what is hidden, have the same edge up to what is hidden. -/

namespace Sys2Proof.Proofs.Noninterference

open Sys2Proof Sys2Proof.Machine Sys2Proof.Safety Sys2Proof.Laws

/-! ### Edges of two states -/

/-- Edges that select the same step agree under `f` and `g` if reset, hold and every effect do. -/
theorem clockEdge_agree {f g : State → State} {s t : State} (hsel : select s = select t)
    (hreset : f (resetRegisters s) = g (resetRegisters t)) (hhold : f s = g t)
    (heffect : ∀ i, mapNext f (effect i s) = mapNext g (effect i t)) :
    mapNext f (clockEdge s) = mapNext g (clockEdge t) := by
  cases hs : select s with
  | run i => rw [clockEdge_selected hs, clockEdge_selected (hsel ▸ hs), heffect]
  | reset => simp only [clockEdge, ← hsel, hs, mapNext, hreset]
  | hold => simp only [clockEdge, ← hsel, hs, mapNext, hhold]
  | noRule | badWord => simp only [clockEdge, ← hsel, hs, mapNext]

theorem mapNext_id (r : Result) : mapNext id r = r := by
  cases r <;> rfl

/-- ENCODE comes out the same if it does for a zero length and for any other. -/
theorem encode_agree {f g : State → State} {s t : State} (len : Nat) (hzero : f (takeCommand s) = g (takeCommand t))
    (hpos : f (startEncode len (takeCommand s)) = g (startEncode len (takeCommand t))) :
    mapNext f (effect (.encode len) s) = mapNext g (effect (.encode len) t) := by
  simp only [effect, mapNext]
  split_ifs
  exacts [congrArg _ hzero, congrArg _ hpos]

/-- The guarded stores of two states with the same parameter, count and capacity agree if their results do. -/
theorem append_agree {f g : State → State} {s t : State} (v : Byte) (hlw : s.lw = t.lw) (hlen : s.d_len = t.d_len)
    (hcap : s.d_cap = t.d_cap)
    (hstore : f { s with DB := s.DB.write s.d_len v, d_len := s.d_len + 1 } =
      g { t with DB := t.DB.write t.d_len v, d_len := t.d_len + 1 })
    (hfull : f (setOVF s) = g (setOVF t)) : mapNext f (append v s) = mapNext g (append v t) := by
  rcases Nat.lt_or_ge s.d_len s.d_cap with hroom | hno
  · by_cases hspace : s.d_len < 2 ^ s.lw
    · rw [append_store hroom hspace, append_store (by omega) (by rwa [← hlen, ← hlw])]
      exact congrArg _ hstore
    · rw [Commands.append_outside hroom hspace, Commands.append_outside (by omega) (by rwa [← hlen, ← hlw])]
      rfl
  · rw [append_full hno, append_full (by omega)]
    exact congrArg _ hfull

/-! ### PL -/

/-- The state with `m` in PL. -/
def withPL (m : Mem) (s : State) : State := { s with PL := m }

theorem effect_withPL (i : Instr) (m : Mem) (s : State) :
    mapNext id (effect i (withPL m s)) = mapNext (withPL m) (effect i s) := by
  cases i with
  | encode len => exact encode_agree len rfl rfl
  | decode | encX2 | encClose | encEnd | encEsc | encLit | decEnd | decEsc => rfl
  | decLit | decXend | decXesc | decXlit => exact append_agree _ rfl rfl rfl rfl rfl

/-- Settles O42: dispatch reads PL at the cursor only, where a payload byte is taken, and no effect reads it. -/
theorem payloadReadOnlyAtCursor : Obligations.PayloadReadOnlyAtCursor := by
  intro s m h
  have hsel : select (withPL m s) = select s :=
    select_congr rfl rfl rfl (fun _ => rfl) (fun _ => ⟨rfl, rfl⟩)
      (fun ho hp => ⟨rfl, rfl, fun hr ht hi => h hr ho ht hp hi⟩) (fun _ => ⟨rfl, rfl⟩)
  exact (mapNext_id _).symm.trans (clockEdge_agree hsel rfl rfl fun i => effect_withPL i m s)

/-! ### OVF, MAL and DB -/

/-- Settles O43: dispatch reads neither the flags nor DB, and what an effect does to them is all it does with them. -/
theorem flagsAndDestinationNeverRead : Obligations.FlagsAndDestinationNeverRead := by
  intro s o l m hide
  have hsel : select { s with OVF := o, MAL := l, DB := m } = select s :=
    select_congr rfl rfl rfl (fun _ => rfl) (fun _ => ⟨rfl, rfl⟩) (fun _ _ => ⟨rfl, rfl, fun _ _ _ => rfl⟩)
      (fun _ => ⟨rfl, rfl⟩)
  refine clockEdge_agree hsel rfl rfl fun i => ?_
  cases i with
  | encode len => exact encode_agree len rfl rfl
  | decode | encX2 | encClose | encEnd | encEsc | encLit | decEnd | decEsc => rfl
  | decLit | decXend | decXesc | decXlit => exact append_agree _ rfl rfl rfl rfl rfl

/-! ### The streams -/

/-- The state with `q` in front of the bytes handed over. -/
def withFront (q : List Byte) (s : State) : State := { s with txq := q ++ s.txq }

theorem txWrite_withFront (b : Byte) (q : List Byte) (s : State) :
    txWrite b (withFront q s) = withFront q (txWrite b s) :=
  congrArg (fun l => { s with txq := l }) (List.append_assoc q s.txq [b])

/-- Every effect appends to `txq` or leaves it alone. -/
theorem effect_withFront (i : Instr) (q : List Byte) (s : State) :
    mapNext id (effect i (withFront q s)) = mapNext (withFront q) (effect i s) := by
  cases i with
  | encode len => exact encode_agree len rfl rfl
  | encX2 => exact congrArg (Host.Outcome.next ∘ escapePaid) (txWrite_withFront s.e_pend q s)
  | encClose => exact congrArg (Host.Outcome.next ∘ endCall) (txWrite_withFront Config.END q s)
  | encEnd =>
    exact congrArg (Host.Outcome.next ∘ advanceCursor ∘ oweEscape Config.ESC_END) (txWrite_withFront Config.ESC q s)
  | encEsc =>
    exact congrArg (Host.Outcome.next ∘ advanceCursor ∘ oweEscape Config.ESC_ESC) (txWrite_withFront Config.ESC q s)
  | encLit b => exact congrArg (Host.Outcome.next ∘ advanceCursor) (txWrite_withFront b q s)
  | decode | decEnd | decEsc => rfl
  | decLit | decXend | decXesc | decXlit => exact append_agree _ rfl rfl rfl rfl rfl

/-- Settles O44: dispatch sees the head of `rxq`, an effect drops it, and `txq` is only appended to. -/
theorem streamsSeenOnlyAtTheirEnds : Obligations.StreamsSeenOnlyAtTheirEnds := by
  refine ⟨fun s c q₁ q₂ => ?_, fun s q => ?_⟩
  · have hsel : select { s with rxq := c :: q₁ } = select { s with rxq := c :: q₂ } :=
      select_congr rfl rfl rfl (fun _ => rfl) (fun _ => ⟨rfl, rfl⟩) (fun _ _ => ⟨rfl, rfl, fun _ _ _ => rfl⟩)
        (fun _ => ⟨rfl, rfl⟩)
    refine clockEdge_agree hsel rfl rfl fun i => ?_
    cases i with
    | encode len => exact encode_agree len rfl rfl
    | decode | encX2 | encClose | encEnd | encEsc | encLit | decEnd | decEsc => rfl
    | decLit | decXend | decXesc | decXlit => exact append_agree _ rfl rfl rfl rfl rfl
  · have hsel : select (withFront q s) = select s :=
      select_congr rfl rfl rfl (fun _ => rfl) (fun _ => ⟨rfl, rfl⟩) (fun _ _ => ⟨rfl, rfl, fun _ _ _ => rfl⟩)
        (fun _ => ⟨rfl, rfl⟩)
    exact (mapNext_id _).symm.trans (clockEdge_agree hsel rfl rfl fun i => effect_withFront i q s)

end Sys2Proof.Proofs.Noninterference

/-! R69(a), R81: the length of a frame, and that decoding undoes encoding. Both go through the payload item by item. -/

namespace Sys2Proof.Proofs.FrameLaws

open Sys2Proof Sys2Proof.Safety Sys2Proof.Laws

/-- The two bytes that are escaped (R47). -/
def isControl (b : Byte) : Bool := b == Config.END || b == Config.ESC

theorem length_item (b : Byte) : (item b).length = if isControl b then 2 else 1 := by
  by_cases hend : b = Config.END
  · subst hend; rfl
  by_cases hesc : b = Config.ESC
  · subst hesc; rfl
  simp [item_other hend hesc, isControl, hend, hesc]

theorem length_items (p : List Byte) : (p.flatMap item).length = p.length + (p.filter isControl).length := by
  induction p with
  | nil => rfl
  | cons b p ih =>
    rw [List.flatMap_cons, List.length_append, length_item, ih, List.filter_cons]
    split_ifs <;> simp only [List.length_cons] <;> omega

/-- Settles O52: the items and the terminator. -/
theorem frameLength : Obligations.FrameLength := by
  refine ⟨enc_nil, fun p hp => ?_⟩
  rw [EncodeCall.enc_of_ne_nil hp, List.length_append, length_items]
  rfl

/-- Settles O53: the frame of a non-empty payload is decoded item by item. -/
theorem decodingInvertsEncoding : Obligations.DecodingInvertsEncoding :=
  fun _ rest hp => Wire.dec_enc_append hp rest

end Sys2Proof.Proofs.FrameLaws
